-- ==== Sys2Proof/Word.lean ====
section
/-! DEFINITION. The word types: a 64-bit value (00_scope.md R4, 10_state.md R21) and an 8-bit byte
(20_memory.md R40), with the two conversions between them that the codec formulas use. -/

namespace Sys2Proof

/-- A VAL-width value: 64 bits, unsigned, shifts logical (00_scope.md R4, R10). -/
abbrev Word := BitVec 64

/-- One byte of the buffer view, of a command word or of STATUS (20_memory.md R40). -/
abbrev Byte := BitVec 8

/-- `zext_64` of a byte (00_scope.md R10). -/
abbrev zext64 (b : Byte) : Word := b.setWidth 64

/-- The low 8 bits of a value, taken where the formula has already masked the rest away. -/
abbrev lowByte (w : Word) : Byte := w.setWidth 8

end Sys2Proof
end

