-- ==== Sys2Proof/Config.lean ====
section
/-! DEFINITION. The parameters of the block (00_scope.md R4 to R7) and its free values: what is fixed for
one machine and never changes as it runs. -/

namespace Sys2Proof

/-- `P_FAIL_WRITE` (00_scope.md R6): what a capacity-failed encode leaves in the view. -/
inductive FailWrite where
  /-- `NONE`: no byte is written. -/
  | none
  /-- `ANY_PREFIX`: every view byte takes a value drawn freely. -/
  | anyPrefix
deriving DecidableEq, Repr

/-- `P_REV_ACC_INIT` (00_scope.md R7): where a reversed decode starts. -/
inductive RevAccInit where
  /-- `KEEP`: from the current VAL. -/
  | keep
  /-- `CLEAR`: from 0. -/
  | clear
deriving DecidableEq, Repr

namespace Config

/-- `extraBits = 64 mod 7 = 1` (00_scope.md R4). -/
abbrev extraBits : Nat := 1

/-- `extraMask = (1 << extraBits) - 1 = 0x1` (00_scope.md R4). -/
abbrev extraMask : Word := 0x1

/-- `MAX_ENC`, the longest encoding of either variant (00_scope.md R4). -/
abbrev maxEnc : Nat := 10

/-- By how much `LEN_W` exceeds its least value 4. UNINTERPRETED: the spec leaves `LEN_W` open (00_scope.md R5).
DESIGN CHOICE (log 1), safe: whatever is proved holds of every `LEN_W >= 4`. -/
opaque lenWBeyond4 : Nat

/-- `LEN_W >= 4`, the width of `LEN` and of COUNT (00_scope.md R5). The spec does not say whether distinct blocks may
have different widths. DESIGN CHOICE (log 20): one `LEN_W` for every block. -/
def lenW : Nat := 4 + lenWBeyond4

/-- Whether a number is at most `2^LEN_W - 1`, the greatest length of a view (00_scope.md R5, 10_state.md R29).
A number below 16 is, whatever `LEN_W` is, since `LEN_W >= 4`; the test says so first, so that it evaluates on
short views although `lenW` does not. `Laws.lenFits_iff` says that the whole test is `n < 2^lenW`. -/
def lenFits (n : Nat) : Bool := decide (n < 16) || decide (n < 2 ^ lenW)

/-- `P_FAIL_WRITE` of this hardware (00_scope.md R6). -/
def failWrite : FailWrite := .none

/-- `P_REV_ACC_INIT` of this hardware (00_scope.md R7). -/
def revAccInit : RevAccInit := .keep

/-- The k-th byte drawn freely under `ANY_PREFIX` (60_exceptions.md R172). UNINTERPRETED: nothing constrains it (log 7). -/
opaque freeByte : Nat → Byte

end Config
end Sys2Proof
end

