-- ==== Sys2Proof/Syntax.lean ====
section
/-! DEFINITION. The ten commands of the block, one constructor per row of opcode_table.json
(30_encoding.md R79). No command has an operand: every operand is implicit (30_encoding.md R75). -/

namespace Sys2Proof

inductive Instr where
  /-- `SIZE.S` (40_standard_codec.md R83). -/
  | sizeS
  /-- `ENC.S` (40_standard_codec.md R84). -/
  | encS
  /-- `DEC.S` (40_standard_codec.md R85). -/
  | decS
  /-- `ENCR.S` (41_standard_reversed.md R100). -/
  | encrS
  /-- `DECR.S` (41_standard_reversed.md R101). -/
  | decrS
  /-- `SIZE.O` (42_overflow_safe_codec.md R126). -/
  | sizeO
  /-- `ENC.O` (42_overflow_safe_codec.md R127). -/
  | encO
  /-- `DEC.O` (42_overflow_safe_codec.md R128). -/
  | decO
  /-- `ENCR.O` (42_overflow_safe_codec.md R129). -/
  | encrO
  /-- `DECR.O` (42_overflow_safe_codec.md R130). -/
  | decrO
deriving DecidableEq, Repr

/-- The mnemonic of each row (30_encoding.md R79). -/
def Instr.mnemonic : Instr → String
  | .sizeS => "SIZE.S"
  | .encS => "ENC.S"
  | .decS => "DEC.S"
  | .encrS => "ENCR.S"
  | .decrS => "DECR.S"
  | .sizeO => "SIZE.O"
  | .encO => "ENC.O"
  | .decO => "DEC.O"
  | .encrO => "ENCR.O"
  | .decrO => "DECR.O"

/-- All ten, in the table's order. -/
def Instr.all : List Instr :=
  [.sizeS, .encS, .decS, .encrS, .decrS, .sizeO, .encO, .decO, .encrO, .decrO]

end Sys2Proof
end

