-- ==== Sys2Proof/Decode.lean ====
section
/-! DEFINITION. The command-word decoder, total on every byte, rejecting reserved words by name, and the encoder
(30_encoding.md R70 to R74, R79). -/

namespace Sys2Proof

/-! ## Fields of a command word (30_encoding.md R70) -/

/-- `OP = cmd[2:0]`. -/
def opField (c : Byte) : BitVec 3 := c.extractLsb' 0 3

/-- `V = cmd[3]`: false is the standard variant, true the overflow-safe one (30_encoding.md R72). -/
def variantBit (c : Byte) : Bool := c.getLsbD 3

/-- `RES = cmd[7:4]`. -/
def resField (c : Byte) : BitVec 4 := c.extractLsb' 4 4

/-- A command word is legal exactly when `RES = 0000` and `OP <= 100` (30_encoding.md R74). -/
def legalWord (c : Byte) : Bool := resField c == 0 && (opField c).toNat ≤ 4

/-- Why a word is reserved (30_encoding.md R71, R73, R74). -/
inductive Reserved where
  /-- A bit of `RES` is set (R73). -/
  | resBitsSet
  /-- `OP = 101`, set aside for the out-of-scope `extend` (R71). -/
  | setAsideExtend
  /-- `OP = 110`, set aside for the out-of-scope `isExtended` (R71). -/
  | setAsideIsExtended
  /-- `OP = 111` (R71). -/
  | reservedOp
deriving DecidableEq, Repr

/-- "for every byte it yields one of the ten rows or 'reserved'" (30_encoding.md R79). -/
inductive Decoded where
  | command (i : Instr)
  | reserved (why : Reserved)
deriving DecidableEq, Repr

/-- The row of `OP` (30_encoding.md R71) in the variant of `V` (R72). -/
def decodeOp (v : Bool) (op : Nat) : Decoded :=
  match op, v with
  | 0, false => .command .sizeS
  | 0, true => .command .sizeO
  | 1, false => .command .encS
  | 1, true => .command .encO
  | 2, false => .command .decS
  | 2, true => .command .decO
  | 3, false => .command .encrS
  | 3, true => .command .encrO
  | 4, false => .command .decrS
  | 4, true => .command .decrO
  | 5, _ => .reserved .setAsideExtend
  | 6, _ => .reserved .setAsideIsExtended
  | _, _ => .reserved .reservedOp

/-- The command-word decoder (30_encoding.md R79): `RES` is looked at first (R73), then `OP` and `V`. -/
def decode (c : Byte) : Decoded :=
  if resField c ≠ 0 then .reserved .resBitsSet
  else decodeOp (variantBit c) (opField c).toNat

/-! ## The encoder, from the same tables -/

/-- The `OP` code of a command (30_encoding.md R71). -/
def Instr.op : Instr → BitVec 3
  | .sizeS | .sizeO => 0b000
  | .encS | .encO => 0b001
  | .decS | .decO => 0b010
  | .encrS | .encrO => 0b011
  | .decrS | .decrO => 0b100

/-- The `V` bit of a command (30_encoding.md R72). -/
def Instr.variant : Instr → BitVec 1
  | .sizeS | .encS | .decS | .encrS | .decrS => 0b0
  | .sizeO | .encO | .decO | .encrO | .decrO => 0b1

/-- The command word: `RES = 0000`, then `V`, then `OP` (30_encoding.md R70). -/
def encode (i : Instr) : Byte := (0b0000#4 ++ i.variant) ++ i.op

/-- The instruction of a word numbered as opcode_table.json numbers it: a command is one word of 8 bits, so a
longer word, or one that does not fit 8 bits, is none (log 17). -/
def decodeTableWord (nbits w : Nat) : Option Instr :=
  if nbits = 8 ∧ w < 256 then
    match decode (BitVec.ofNat 8 w) with
    | .command i => some i
    | .reserved _ => none
  else none

end Sys2Proof
end

