-- ==== Sys2Proof/Access.lean ====
section
/-! DEFINITION. What the host can do to the block and what it gets back, as plain data
(45_host_access.md R150 to R158, 70_reset_and_hazards.md R190). -/

namespace Sys2Proof

/-- A host write of one register, whole (20_memory.md R46). Each register takes data of its own width
(10_state.md R26), so no bit of a write is left without a meaning (log 13). -/
inductive RegWrite where
  /-- Register 0, `CMD c`: issue a command (45_host_access.md R156). -/
  | cmd (c : Byte)
  /-- Register 1, `WRVAL x` (45_host_access.md R150). -/
  | val (x : Word)
  /-- Register 2, read-only: the write is ignored (45_host_access.md R157). -/
  | count (n : Nat)
  /-- Register 3, read-only: the write is ignored (45_host_access.md R157). -/
  | status (b : Byte)
  /-- Register `4 + k`, not implemented (45_host_access.md R158). -/
  | beyond (k : Nat)
deriving DecidableEq, Repr

/-- One move at the port: a host access of 45_host_access.md, or the reset event of 70_reset_and_hazards.md R190,
which "may come at any point between host accesses". The spec names no agent that raises reset. DESIGN CHOICE (log 19):
it stands in the one list of moves beside the accesses, at whatever points that list puts it, and comes from nowhere
else. -/
inductive HostEvent where
  /-- A register write (R150, R156, R157, R158). -/
  | write (w : RegWrite)
  /-- A read of the register of that number (R151, R152, R153, R156, R158). -/
  | read (n : Nat)
  /-- `SETBUF [b_0, ...]`: attach a view (R154). -/
  | setbuf (bytes : List Byte)
  /-- `GETBUF`: read the view back (R155). -/
  | getbuf
  /-- The reset event (R190), a move like an access (DESIGN CHOICE, log 19). -/
  | reset
deriving DecidableEq, Repr

/-- What a read returned to the host. -/
inductive Reply where
  /-- 64 bits: a read of VAL (R151). -/
  | value (x : Word)
  /-- COUNT, zero-extended to whatever width the host reads (R152). -/
  | number (n : Nat)
  /-- 8 bits: a read of STATUS (R153) or of CMD (R156). -/
  | byte (b : Byte)
  /-- The view's bytes, index 0 first (R155). -/
  | bytes (bs : List Byte)
deriving DecidableEq, Repr

namespace HostEvent

/-! The accesses by the names of 30_encoding.md R76 and the register numbers of 10_state.md R26. -/

abbrev cmd (c : Byte) : HostEvent := .write (.cmd c)
abbrev wrval (x : Word) : HostEvent := .write (.val x)
abbrev rdcmd : HostEvent := .read 0
abbrev rdval : HostEvent := .read 1
abbrev rdcnt : HostEvent := .read 2
abbrev rdstat : HostEvent := .read 3

end HostEvent
end Sys2Proof
end

