-- ==== Sys2Proof/Machine/State.lean ====
section
/-! DEFINITION. The state of one block and its host, as plain data; what a run can stop on; the state after reset. -/

namespace Sys2Proof.Machine

/-- The attached buffer view BUF (10_state.md R29): `len` bytes, indices `0 .. len - 1` (20_memory.md R40, R41).
`cells` lists (index, byte) pairs; an index below `len` that is not listed holds 0x00 (log 3), and an index of `len`
or more does not exist. `Memory.wf` (Ops.lean) is the canonical form. -/
structure Memory where
  len : Nat
  cells : List Host.Cell
deriving DecidableEq, Repr

/-- One block and the host's side of its interface. -/
structure State where
  /-- VAL, the value register and decode accumulator (10_state.md R21). -/
  val : Word
  /-- COUNT, the byte count of the last command (10_state.md R24), below `2^LEN_W` (log 2). -/
  count : Nat
  /-- STATUS, the outcome of the last command (10_state.md R25). -/
  status : Byte
  /-- BUF and LEN, the attached view (10_state.md R29). -/
  buf : Memory
  /-- The model's own: the host accesses still to come, oldest first (30_encoding.md R78, log 4), with the reset events
  among them (log 19). -/
  pending : List HostEvent
  /-- The model's own: what the host's last read returned (log 6). -/
  reply : Option Reply
  /-- The model's own: how many free bytes have been drawn under `ANY_PREFIX` (log 7). -/
  draws : Nat
deriving DecidableEq, Repr

/-- What stops the machine with a fault. -/
inductive Fault where
  /-- Raised by `memRead` or `memWrite` at an index of LEN or more, where no byte exists (00_scope.md R11,
  20_memory.md R42). No rule of the spec makes such an access, so no step of a command raises it. Safe. -/
  | outsideView
deriving DecidableEq, Repr

/-- What the model gives no meaning. -/
inductive Refusal where
  /-- Raised by an arm of `exec` whose instruction has no meaning yet. Safe. -/
  | notModelled (mnemonic : String)
  /-- Raised by a host access to register `n >= 4`: "the model refuses it" (45_host_access.md R158). Safe. -/
  | registerNotImplemented (n : Nat)
  /-- Raised by `SETBUF` of more than `2^LEN_W - 1` bytes: "the model refuses it" (45_host_access.md R154). Safe. -/
  | viewTooLong (length : Nat)
  /-- Raised by a move of a block that is not among the given blocks (Instances.lean, log 15). Safe. -/
  | noSuchBlock (k : Nat)
deriving DecidableEq, Repr

/-- Right after reset: VAL, COUNT and STATUS are 0 and the view is empty (10_state.md R30 to R33); the model's own
fields hold nothing (log 4, 6, 7). -/
def State.reset : State :=
  { val := 0
    count := 0
    status := 0x00
    buf := { len := 0, cells := [] }
    pending := []
    reply := none
    draws := 0 }

end Sys2Proof.Machine
end

