-- ==== Sys2Proof/Machine/Flags.lean ====
section
/-! DEFINITION. The STATUS register's fields and the writes of it (10_state.md R25, 00_scope.md R11). -/

namespace Sys2Proof.Machine

/-- The named bits of STATUS (10_state.md R25). -/
inductive StatusBit where
  /-- Bit 0: the command was a decode that consumed a terminal byte. -/
  | complete
  /-- Bit 1: the command ended with a capacity error. -/
  | capErr
  /-- Bit 2: the command word was reserved. -/
  | ill
deriving DecidableEq, Repr

/-- The byte with that one bit set. -/
def StatusBit.mask : StatusBit → Byte
  | .complete => 0x01
  | .capErr => 0x02
  | .ill => 0x04

/-- The value `STATUS <- {bits}` writes: the listed bits are 1 and every other bit is 0 (00_scope.md R11). -/
def statusWord (bits : List StatusBit) : Byte :=
  bits.foldl (fun acc b => acc ||| b.mask) 0x00

/-- The values STATUS can take: nothing, or one of its three bits (10_state.md R25: "At most one of bits 0..2 is 1
after any command"; bits 7..3 are hardwired 0). -/
def statusLegal (b : Byte) : Bool :=
  b == statusWord [] || b == statusWord [.complete] || b == statusWord [.capErr] || b == statusWord [.ill]

end Sys2Proof.Machine
end

