-- ==== Sys2Proof/Machine/Operands.lean ====
section
/-! DEFINITION. The bit fields of an encoded byte, the 7-bit groups of a value, and where a byte of an encoding lies
in the view. A command has no explicit operand: it reads VAL and the view (30_encoding.md R75). -/

namespace Sys2Proof.Machine

/-! ## One encoded byte (30_encoding.md R60) -/

/-- `C = b[7]`: true when more bytes follow, false on the terminal byte. -/
def contFlag (b : Byte) : Bool := b.getLsbD 7

/-- `b & 0x7F`, the group. -/
def payload (b : Byte) : Byte := b &&& 0x7F

/-- `(w >> 7 i) & 0x7F`, group `i` of `w` counted from bit 0 (40_standard_codec.md R81, 42_overflow_safe_codec.md R122). -/
def slice (w : Word) (i : Nat) : Byte := lowByte ((w >>> (7 * i)) &&& 0x7F)

/-- `g | (if more then 0x80 else 0x00)`. -/
def withCont (more : Bool) (g : Byte) : Byte := g ||| (if more then 0x80 else 0x00)

/-! ## Where the k-th byte of an encoding lies -/

/-- Forward or reversed mode (00_scope.md glossary; 30_encoding.md R61). -/
inductive Direction where
  | forward
  | reversed
deriving DecidableEq, Repr

/-- The index of the k-th byte in reading order: `k` upward from 0, or `LEN - 1 - k` downward from the end
(30_encoding.md R61, R65). -/
def place (d : Direction) (len k : Nat) : Nat :=
  match d with
  | .forward => k
  | .reversed => len - 1 - k

/-- The indices of a view of `len` bytes in reading order (30_encoding.md R61). -/
def readingOrder (d : Direction) (len : Nat) : List Nat :=
  (List.range len).map (place d len)

end Sys2Proof.Machine
end

