-- ==== Sys2Proof/Machine/Ops.lean ====
section
/-! DEFINITION. The named operations over registers and the buffer view, the two errors, and the shared operations
of the commands: size query, encode, forward decode, reversed decode. -/

namespace Sys2Proof.Machine

/-! ## Register and port writes -/

/-- `VAL <- x`, whole 64 bits (00_scope.md R11). -/
def State.withVal (s : State) (x : Word) : State := { s with val := x }

/-- `COUNT <- n` (00_scope.md R11). -/
def State.withCount (s : State) (n : Nat) : State := { s with count := n }

/-- `STATUS <- {bits}`: every other bit becomes 0 (00_scope.md R11). -/
def State.withStatus (s : State) (bits : List StatusBit) : State := { s with status := statusWord bits }

/-- The view becomes `m`. -/
def State.withBuf (s : State) (m : Memory) : State := { s with buf := m }

/-- The host's read returned `r`. -/
def State.withReply (s : State) (r : Reply) : State := { s with reply := some r }

/-- The accesses still to come are `es`. -/
def State.withPending (s : State) (es : List HostEvent) : State := { s with pending := es }

/-- `k` more free bytes have been drawn. -/
def State.drawn (s : State) (k : Nat) : State := { s with draws := s.draws + k }

/-! ## The buffer view (20_memory.md R40 to R44) -/

/-- The byte a list of cells holds at index `i`: 0x00 where none is listed (log 3). -/
def cellByte : List Host.Cell → Nat → Byte
  | [], _ => 0x00
  | c :: cs, i => if c.1 = i then c.2 else cellByte cs i

/-- Put a cell in its place in a list sorted by index. -/
def insertCell (i : Nat) (b : Byte) : List Host.Cell → List Host.Cell
  | [] => [(i, b)]
  | c :: cs => if i < c.1 then (i, b) :: c :: cs else c :: insertCell i b cs

/-- Index `i` holds `b` and nothing else changes; a byte that reads as an unlisted one is not listed. -/
def setCell (i : Nat) (b : Byte) (cs : List Host.Cell) : List Host.Cell :=
  let others := cs.filter (fun c => c.1 != i)
  if b = 0x00 then others else insertCell i b others

/-- The cells of a byte sequence whose first byte has index `k`. -/
def cellsFrom (k : Nat) : List Byte → List Host.Cell
  | [] => []
  | b :: bs => if b = 0x00 then cellsFrom (k + 1) bs else (k, b) :: cellsFrom (k + 1) bs

/-- The canonical form of the cells (DESIGN CHOICE, log 3): indices strictly rising, all below LEN, no cell that holds
what an unlisted index reads as. -/
def Memory.wf (m : Memory) : Bool :=
  decide (m.cells.Pairwise (fun a b => a.1 < b.1)) && m.cells.all (fun c => decide (c.1 < m.len) && c.2 != 0x00)

/-- `BUF[i]` for an index of the view. -/
def Memory.byteAt (m : Memory) (i : Nat) : Byte := cellByte m.cells i

/-- `MemRead(i, 1)` (00_scope.md R11): none where the view has no byte `i`. -/
def Memory.memRead (m : Memory) (i : Nat) : Option Byte :=
  if i < m.len then some (m.byteAt i) else none

/-- `MemWrite(i, 1, b)` (00_scope.md R11): none where the view has no byte `i`. -/
def Memory.memWrite (m : Memory) (i : Nat) (b : Byte) : Option Memory :=
  if i < m.len then some { m with cells := setCell i b m.cells } else none

/-- The view of a byte sequence, index 0 first (45_host_access.md R154). -/
def Memory.ofBytes (bs : List Byte) : Memory := { len := bs.length, cells := cellsFrom 0 bs }

/-- `BUF[0 .. LEN-1]` (45_host_access.md R155). -/
def Memory.toBytes (m : Memory) : List Byte := (List.range m.len).map m.byteAt

/-! ## The two errors (60_exceptions.md)

An error is a STATUS outcome: it saves no state, changes no mode and transfers control nowhere (R178), and there is
no trap return (R179), so nothing stands beside these two. -/

/-- `raise CapacityError(n)`: `STATUS <- {CAPERR}` and `COUNT <- n`, after which the block is at once ready for the
next command (60_exceptions.md R172 items 1 and 5). -/
def raiseCapacityError (n : Nat) (s : State) : State := (s.withCount n).withStatus [.capErr]

/-- `raise IllegalCommand()`: `STATUS <- {ILL}` and nothing else (60_exceptions.md R175). -/
def raiseIllegalCommand (s : State) : State := s.withStatus [.ill]

/-! ## Encoding -/

/-- `k` free bytes, the first of them the `d`-th ever drawn (60_exceptions.md R172 item 2, log 7). -/
def drawBytes (d k : Nat) : List Byte := (List.range k).map (fun j => Config.freeByte (d + j))

/-- What a capacity-failed encode leaves in the view (60_exceptions.md R172 item 2): under `NONE` the view is
unchanged; under `ANY_PREFIX` "every byte of the view takes a value the model draws freely". -/
def failedEncodeView (p : FailWrite) (s : State) : State :=
  match p with
  | .none => s
  | .anyPrefix => (s.withBuf (Memory.ofBytes (drawBytes s.draws s.buf.len))).drawn s.buf.len

/-- `MemWrite` of each byte of an encoding at its place, the k-th and those after it, in order. -/
def storeBytes (d : Direction) (k : Nat) : List Byte → Memory → Option Memory
  | [], m => some m
  | b :: bs, m =>
    match m.memWrite (place d m.len k) b with
    | none => none
    | some m' => storeBytes d (k + 1) bs m'

/-- An encode of either variant in either mode (40_standard_codec.md R84, 41_standard_reversed.md R100,
42_overflow_safe_codec.md R127, R129): capacity is checked before any write (60_exceptions.md R176). -/
def encodeCommand (p : FailWrite) (d : Direction) (size : Word → Nat) (enc : Word → List Byte) (s : State) :
    Host.Outcome State Fault Refusal :=
  let n := size s.val
  if s.buf.len < n then .next (raiseCapacityError n (failedEncodeView p s))
  else
    match storeBytes d 0 (enc s.val) s.buf with
    | none => .fault .outsideView
    | some m => .next (((s.withBuf m).withCount n).withStatus [])

/-- A size query of either variant (40_standard_codec.md R83, 42_overflow_safe_codec.md R126). -/
def sizeCommand (size : Word → Nat) (s : State) : Host.Outcome State Fault Refusal :=
  .next ((s.withCount (size s.val)).withStatus [])

/-! ## Decoding -/

/-- How a scan of the view ended: the accumulator, the bytes consumed, and whether the last of them was terminal. -/
structure Scan where
  acc : Word
  consumed : Nat
  terminal : Bool
deriving DecidableEq, Repr

/-- Read the view at the given indices in order, accumulating each byte, up to and including the first byte whose
continuation flag is clear (30_encoding.md R61; the loops of R85, R101, R128 and R130). -/
def scan (upd : Word → Byte → Word) (m : Memory) : List Nat → Word → Option Scan
  | [], a => some { acc := a, consumed := 0, terminal := false }
  | i :: is, a =>
    match m.memRead i with
    | none => none
    | some b =>
      if contFlag b then (scan upd m is (upd a b)).map (fun r => { r with consumed := r.consumed + 1 })
      else some { acc := upd a b, consumed := 1, terminal := true }

/-- A forward decode of either variant (40_standard_codec.md R85, 42_overflow_safe_codec.md R128): VAL is not cleared
at the start (10_state.md R22), and running out of bytes is no error (60_exceptions.md R173). -/
def decodeForward (upd : Word → Byte → Word) (s : State) : Host.Outcome State Fault Refusal :=
  match scan upd s.buf (readingOrder .forward s.buf.len) s.val with
  | none => .fault .outsideView
  | some r =>
    let s' := (s.withVal r.acc).withCount r.consumed
    .next (if r.terminal then s'.withStatus [.complete] else s'.withStatus [])

/-- Where a reversed decode starts (00_scope.md R7). -/
def reversedStart (p : RevAccInit) (v : Word) : Word :=
  match p with
  | .keep => v
  | .clear => 0

/-- A reversed decode of either variant (41_standard_reversed.md R101, 42_overflow_safe_codec.md R130): a view with no
terminal byte is a capacity error, which leaves the accumulation of every byte in VAL (60_exceptions.md R172 item 4). -/
def decodeReversed (p : RevAccInit) (upd : Word → Byte → Word) (s : State) : Host.Outcome State Fault Refusal :=
  match scan upd s.buf (readingOrder .reversed s.buf.len) (reversedStart p s.val) with
  | none => .fault .outsideView
  | some r =>
    .next (if r.terminal then ((s.withVal r.acc).withCount r.consumed).withStatus [.complete]
      else raiseCapacityError s.buf.len (s.withVal r.acc))

end Sys2Proof.Machine
end

