-- ==== Sys2Proof/Machine/OverflowSafe.lean ====
section
/-! DEFINITION. The overflow-safe codec, forward and reversed (42_overflow_safe_codec.md). -/

namespace Sys2Proof.Machine

/-- The loop `while t != 0: t <- t << 7; n <- n + 1` of R121 as the number of its turns, at most `fuel`.
Ten turns empty a 64-bit value (log 9). -/
def groupsLeft : Nat → Word → Nat
  | 0, _ => 0
  | fuel + 1, t => if t = 0 then 0 else groupsLeft fuel (t <<< 7) + 1

/-- `size_O(v)` (42_overflow_safe_codec.md R121). -/
def sizeO (v : Word) : Nat := 1 + groupsLeft Config.maxEnc (v <<< 7)

/-- The bytes of `for j in 0 .. m-1` of R122: group `j` of `w`, with bit 0x80 set unless `j = m - 1`. -/
def groupsUp (w : Word) (m : Nat) : List Byte :=
  (List.range m).map (fun j => withCont (j != m - 1) (slice w j))

/-- The first byte of the extra-bit branch of R122, `0x80 | ((v & extraMask) << (7 - extraBits))`
(42_overflow_safe_codec.md R120). -/
def extraByte (v : Word) : Byte :=
  lowByte (0x80 ||| ((v &&& Config.extraMask) <<< (7 - Config.extraBits)))

/-- `encO(v)` (42_overflow_safe_codec.md R122): least-significant group first, and the pre-shift is to the right
(90_conflicts.md C2, C5). -/
def encBytesO (v : Word) : List Byte :=
  if v &&& Config.extraMask ≠ 0 then extraByte v :: groupsUp (v >>> Config.extraBits) 9
  else groupsUp (v >>> (64 - 7 * sizeO v)) (sizeO v)

/-- `upd_O(a, b) = (a >> 7) | (zext_64(b & 0x7F) << 57)`, both shifts logical (42_overflow_safe_codec.md R123,
90_conflicts.md C4). -/
def updO (a : Word) (b : Byte) : Word := (a >>> 7) ||| (zext64 (payload b) <<< 57)

/-- `SIZE.O` (42_overflow_safe_codec.md R126). -/
def execSizeO (s : State) : Host.Outcome State Fault Refusal := sizeCommand sizeO s

/-- `ENC.O` (42_overflow_safe_codec.md R127). -/
def execEncO (s : State) : Host.Outcome State Fault Refusal :=
  encodeCommand Config.failWrite .forward sizeO encBytesO s

/-- `DEC.O` (42_overflow_safe_codec.md R128). -/
def execDecO (s : State) : Host.Outcome State Fault Refusal := decodeForward updO s

/-- `ENCR.O` (42_overflow_safe_codec.md R129). -/
def execEncrO (s : State) : Host.Outcome State Fault Refusal :=
  encodeCommand Config.failWrite .reversed sizeO encBytesO s

/-- `DECR.O` (42_overflow_safe_codec.md R130). -/
def execDecrO (s : State) : Host.Outcome State Fault Refusal := decodeReversed Config.revAccInit updO s

end Sys2Proof.Machine
end

