-- ==== Sys2Proof/Machine/Standard.lean ====
section
/-! DEFINITION. The standard codec, forward (40_standard_codec.md). -/

namespace Sys2Proof.Machine

/-- The loop `while t != 0: t <- t >> 7; n <- n + 1` of R80 as the number of its turns, at most `fuel`.
Ten turns empty a 64-bit value (log 9). -/
def groupsRight : Nat → Word → Nat
  | 0, _ => 0
  | fuel + 1, t => if t = 0 then 0 else groupsRight fuel (t >>> 7) + 1

/-- `size_S(v)` (40_standard_codec.md R80). -/
def sizeS (v : Word) : Nat := if v ≤ 0x7F then 1 else groupsRight Config.maxEnc v

/-- The bytes of `for i from k-1 downto 0` of R81: group `i`, with bit 0x80 set unless `i = 0`. -/
def groupsDown (v : Word) : Nat → List Byte
  | 0 => []
  | i + 1 => withCont (i != 0) (slice v i) :: groupsDown v i

/-- `encS(v)` (40_standard_codec.md R81). -/
def encBytesS (v : Word) : List Byte := groupsDown v (sizeS v)

/-- `upd_S(a, b) = (a << 7) | zext_64(b & 0x7F)` (40_standard_codec.md R82). -/
def updS (a : Word) (b : Byte) : Word := (a <<< 7) ||| zext64 (payload b)

/-- `SIZE.S` (40_standard_codec.md R83). -/
def execSizeS (s : State) : Host.Outcome State Fault Refusal := sizeCommand sizeS s

/-- `ENC.S` (40_standard_codec.md R84). -/
def execEncS (s : State) : Host.Outcome State Fault Refusal :=
  encodeCommand Config.failWrite .forward sizeS encBytesS s

/-- `DEC.S` (40_standard_codec.md R85). -/
def execDecS (s : State) : Host.Outcome State Fault Refusal := decodeForward updS s

end Sys2Proof.Machine
end

