-- ==== Sys2Proof/Machine/StandardReversed.lean ====
section
/-! DEFINITION. The reversed-buffer adapters of the standard codec (41_standard_reversed.md). -/

namespace Sys2Proof.Machine

/-- `ENCR.S` (41_standard_reversed.md R100): the forward bytes mirrored into the tail of the view. -/
def execEncrS (s : State) : Host.Outcome State Fault Refusal :=
  encodeCommand Config.failWrite .reversed sizeS encBytesS s

/-- `DECR.S` (41_standard_reversed.md R101). -/
def execDecrS (s : State) : Host.Outcome State Fault Refusal := decodeReversed Config.revAccInit updS s

end Sys2Proof.Machine
end

