-- ==== Sys2Proof/Machine/Dispatch.lean ====
section
/-! DEFINITION. One arm per command (30_encoding.md R79). -/

namespace Sys2Proof.Machine

def exec (i : Instr) (s : State) : Host.Outcome State Fault Refusal :=
  match i with
  | .sizeS => Sys2Proof.Machine.execSizeS s
  | .encS => Sys2Proof.Machine.execEncS s
  | .decS => Sys2Proof.Machine.execDecS s
  | .encrS => Sys2Proof.Machine.execEncrS s
  | .decrS => Sys2Proof.Machine.execDecrS s
  | .sizeO => Sys2Proof.Machine.execSizeO s
  | .encO => Sys2Proof.Machine.execEncO s
  | .decO => Sys2Proof.Machine.execDecO s
  | .encrO => Sys2Proof.Machine.execEncrO s
  | .decrO => Sys2Proof.Machine.execDecrO s

end Sys2Proof.Machine
end

