-- ==== Sys2Proof/Machine/HostPort.lean ====
section
/-! DEFINITION. The host accesses and the reset event (45_host_access.md, 70_reset_and_hazards.md R190), and a
sequence of them (30_encoding.md R78). -/

namespace Sys2Proof.Machine

/-- `CMD c` (45_host_access.md R156): a reserved word raises IllegalCommand, a legal one performs its row. -/
def issueCommand (c : Byte) (s : State) : Host.Outcome State Fault Refusal :=
  match decode c with
  | .command i => exec i s
  | .reserved _ => .next (raiseIllegalCommand s)

/-- A host write of a register (45_host_access.md R150, R156, R157, R158). -/
def writeRegister (w : RegWrite) (s : State) : Host.Outcome State Fault Refusal :=
  match w with
  | .cmd c => issueCommand c s
  | .val x => .next (s.withVal x)
  | .count _ => .next s
  | .status _ => .next s
  | .beyond k => .refused (.registerNotImplemented (4 + k))

/-- A host read of a register, by its number (10_state.md R26): it has no side effect on the block
(45_host_access.md R151, R152, R153, R156, R158). -/
def readRegister (n : Nat) (s : State) : Host.Outcome State Fault Refusal :=
  match n with
  | 0 => .next (s.withReply (.byte 0x00))
  | 1 => .next (s.withReply (.value s.val))
  | 2 => .next (s.withReply (.number s.count))
  | 3 => .next (s.withReply (.byte s.status))
  | k + 4 => .refused (.registerNotImplemented (k + 4))

/-- `SETBUF` (45_host_access.md R154): the new view replaces any earlier one, and one longer than `2^LEN_W - 1` is
refused. -/
def attachView (bytes : List Byte) (s : State) : Host.Outcome State Fault Refusal :=
  if Config.lenFits bytes.length then .next (s.withBuf (Memory.ofBytes bytes))
  else .refused (.viewTooLong bytes.length)

/-- The reset event (70_reset_and_hazards.md R190): VAL, COUNT and STATUS become 0 and the view is detached; the
host's own side of the port is not the block's to reset (log 14). -/
def resetBlock (s : State) : State :=
  (((s.withVal 0).withCount 0).withStatus []).withBuf { len := 0, cells := [] }

/-- One move of the host, one atomic step (00_scope.md R12). -/
def perform (e : HostEvent) (s : State) : Host.Outcome State Fault Refusal :=
  match e with
  | .write w => writeRegister w s
  | .read n => readRegister n s
  | .setbuf bytes => attachView bytes s
  | .getbuf => .next (s.withReply (.bytes s.buf.toBytes))
  | .reset => .next (resetBlock s)

/-- Take the oldest pending access and perform it. With none pending the block "does nothing between commands"
(60_exceptions.md R184, log 5). Reset is one of the moves in that list, so a step resets only where the list says so
(DESIGN CHOICE, log 19). -/
def performNext (s : State) : Host.Outcome State Fault Refusal :=
  match s.pending with
  | [] => .next s
  | e :: es => perform e (s.withPending es)

/-- The state after the last of a sequence of accesses, "one access per step" (30_encoding.md R78,
70_reset_and_hazards.md R202). -/
def performAll : List HostEvent → State → Host.Outcome State Fault Refusal
  | [], s => .next s
  | e :: es, s =>
    match perform e s with
    | .next s' => performAll es s'
    | .fault f => .fault f
    | .refused r => .refused r

/-- The command word `w` of `nbits` bits is written to CMD as the host's very next access (log 4). -/
def queueCommandWord (s : State) (_nbits w : Nat) : State :=
  s.withPending (HostEvent.cmd (BitVec.ofNat 8 w) :: s.pending)

end Sys2Proof.Machine
end

