-- ==== Sys2Proof/Machine/Step.lean ====
section
/-! DEFINITION. One step: the host's oldest pending access, performed as one atomic transition
(00_scope.md R12, 20_memory.md R47, 30_encoding.md R78). -/

namespace Sys2Proof.Machine

def step (s : State) : Host.Outcome State Fault Refusal := performNext s

/-- The block fetches nothing (20_memory.md R50): the next step runs the command word the host writes to CMD next. -/
def State.withFetchWord (s : State) (nbits w : Nat) : State := queueCommandWord s nbits w

end Sys2Proof.Machine
end

