-- ==== Sys2Proof/Machine/Assembler.lean ====
section
/-! DEFINITION. Host programs in assembler form: the lines, what each stands for, and their reading from characters
(30_encoding.md R77, R78). The block knows nothing of them: a program reaches it as a list of host accesses. -/

namespace Sys2Proof.Machine

/-- The operand of `SETBUF` (30_encoding.md R77). -/
inductive ViewOperand where
  /-- A bracketed list of byte literals. -/
  | list (bytes : List Byte)
  /-- `zero(n)`: n zero bytes. -/
  | zero (n : Nat)
  /-- `fill(n, b)`: n copies of b. -/
  | fill (n : Nat) (b : Byte)
deriving DecidableEq, Repr

/-- A line of a host program (30_encoding.md R77), pseudo-instructions included (R78). -/
inductive AsmLine where
  /-- A command mnemonic: `SIZE`, `ENC`, `DEC`, `ENCR` or `DECR` with `.S` or `.O`. -/
  | command (i : Instr)
  /-- `CMD 0x..`, a word given by its value. -/
  | cmd (c : Byte)
  | wrval (x : Word)
  | rdval
  | rdcnt
  | rdstat
  | setbuf (v : ViewOperand)
  | getbuf
  /-- `CLRVAL`: empty the accumulator. -/
  | clrval
  /-- `FDEC.S`: fresh forward decode, standard. -/
  | fdecS
  /-- `FDEC.O`: fresh forward decode, overflow-safe. -/
  | fdecO
  /-- `FDECR.S`: fresh reversed decode, standard. -/
  | fdecrS
  /-- `FDECR.O`: fresh reversed decode, overflow-safe. -/
  | fdecrO
deriving DecidableEq, Repr

/-- The bytes of a view operand. -/
def ViewOperand.bytes : ViewOperand → List Byte
  | .list bs => bs
  | .zero n => List.replicate n 0x00
  | .fill n b => List.replicate n b

/-- The accesses a line stands for: a command line assembles to its one-byte CMD word, and a pseudo-instruction to
its expansion (30_encoding.md R77, R78). -/
def assembleLine : AsmLine → List HostEvent
  | .command i => [HostEvent.cmd (encode i)]
  | .cmd c => [HostEvent.cmd c]
  | .wrval x => [HostEvent.wrval x]
  | .rdval => [HostEvent.rdval]
  | .rdcnt => [HostEvent.rdcnt]
  | .rdstat => [HostEvent.rdstat]
  | .setbuf v => [.setbuf v.bytes]
  | .getbuf => [.getbuf]
  | .clrval => [HostEvent.wrval 0]
  | .fdecS => [HostEvent.wrval 0, HostEvent.cmd (encode .decS)]
  | .fdecO => [HostEvent.wrval 0, HostEvent.cmd (encode .decO)]
  | .fdecrS => [HostEvent.wrval 0, HostEvent.cmd (encode .decrS)]
  | .fdecrO => [HostEvent.wrval 0, HostEvent.cmd (encode .decrO)]

/-- A program is its lines' accesses in order (30_encoding.md R78). -/
def assemble (lines : List AsmLine) : List HostEvent := lines.flatMap assembleLine

/-! ## Reading a line from its characters (30_encoding.md R77; the spacing is log 16) -/

/-- A space or a tab. -/
def isBlank (c : Char) : Bool := c == ' ' || c == '\t'

/-- A line without its comment: "`;` starts a comment". -/
def dropComment (cs : List Char) : List Char := cs.takeWhile (· != ';')

/-- A line without the blanks at its two ends. -/
def trimBlanks (cs : List Char) : List Char := ((cs.dropWhile isBlank).reverse.dropWhile isBlank).reverse

/-- The pieces between separators; one separator more than pieces less one. -/
def splitAtChar (sep : Char) : List Char → List (List Char)
  | [] => [[]]
  | c :: cs =>
    if c == sep then [] :: splitAtChar sep cs
    else match splitAtChar sep cs with
      | [] => [[c]]
      | p :: ps => (c :: p) :: ps

/-- The value of a digit below the base. -/
def digitValue (base : Nat) (c : Char) : Option Nat :=
  let n := c.toNat
  let d :=
    if 48 ≤ n ∧ n ≤ 57 then some (n - 48)
    else if 97 ≤ n ∧ n ≤ 102 then some (n - 87)
    else if 65 ≤ n ∧ n ≤ 70 then some (n - 55)
    else none
  d.filter (· < base)

/-- The number of the digits after those already read. -/
def digitsValue (base : Nat) : List Char → Nat → Option Nat
  | [], acc => some acc
  | c :: cs, acc => (digitValue base c).bind (fun d => digitsValue base cs (acc * base + d))

/-- A literal, decimal or `0x` hexadecimal. R77 says both bases of `WRVAL`'s literal alone. DESIGN CHOICE (log 16): the
bytes and counts of `SETBUF` and the word of `CMD` take both too, and leading zeros are allowed. -/
def parseNumber (cs : List Char) : Option Nat :=
  match trimBlanks cs with
  | [] => none
  | ['0', 'x'] => none
  | '0' :: 'x' :: ds => digitsValue 16 ds 0
  | ds => digitsValue 10 ds 0

/-- A literal that fits `w` bits; a greater one is no literal (DESIGN CHOICE, log 16). -/
def parseBits (w : Nat) (cs : List Char) : Option (BitVec w) :=
  (parseNumber cs).bind (fun n => if n < 2 ^ w then some (BitVec.ofNat w n) else none)

/-- The characters between an opening part and a closing character. -/
def between (opening : List Char) (closing : Char) (cs : List Char) : Option (List Char) :=
  if opening.isPrefixOf cs then
    match (cs.drop opening.length).reverse with
    | c :: inner => if c == closing then some inner.reverse else none
    | [] => none
  else none

/-- A comma-separated list of byte literals, empty between bare brackets. -/
def parseByteList (cs : List Char) : Option (List Byte) :=
  match trimBlanks cs with
  | [] => some []
  | inner => (splitAtChar ',' inner).mapM (parseBits 8)

/-- The operand of `SETBUF`: `[..]`, `zero(n)` or `fill(n, b)` (30_encoding.md R77). -/
def parseView (cs : List Char) : Option ViewOperand :=
  match between ['['] ']' cs with
  | some inner => (parseByteList inner).map .list
  | none =>
    match between ['z', 'e', 'r', 'o', '('] ')' cs with
    | some inner => (parseNumber inner).map .zero
    | none =>
      match between ['f', 'i', 'l', 'l', '('] ')' cs with
      | some inner =>
        match splitAtChar ',' inner with
        | [n, b] => (parseNumber n).bind (fun n => (parseBits 8 b).map (.fill n))
        | _ => none
      | none => none

/-- The lines that are one word: a command, a read, or a pseudo-instruction. -/
def plainLines : List (String × AsmLine) :=
  Instr.all.map (fun i => (i.mnemonic, .command i)) ++
    [("RDVAL", .rdval), ("RDCNT", .rdcnt), ("RDSTAT", .rdstat), ("GETBUF", .getbuf), ("CLRVAL", .clrval),
      ("FDEC.S", .fdecS), ("FDEC.O", .fdecO), ("FDECR.S", .fdecrS), ("FDECR.O", .fdecrO)]

/-- One line: none where it is not a line of the assembler, some none where it holds nothing but blanks and a comment.
`CMD` takes any byte, a legal word too (DESIGN CHOICE, log 16). -/
def parseLine (cs : List Char) : Option (Option AsmLine) :=
  match trimBlanks (dropComment cs) with
  | [] => some none
  | line =>
    let word := line.takeWhile (fun c => !isBlank c)
    let rest := trimBlanks (line.dropWhile (fun c => !isBlank c))
    if rest.isEmpty then ((plainLines.find? (fun p => p.1.toList == word)).map Prod.snd).map some
    else if word == ['W', 'R', 'V', 'A', 'L'] then (parseBits 64 rest).map (fun x => some (.wrval x))
    else if word == ['S', 'E', 'T', 'B', 'U', 'F'] then (parseView rest).map (fun v => some (.setbuf v))
    else if word == ['C', 'M', 'D'] then (parseBits 8 rest).map (fun c => some (.cmd c))
    else none

/-- A program's lines: "one access per line" (30_encoding.md R77). -/
def parseProgram (cs : List Char) : Option (List AsmLine) :=
  ((splitAtChar '\n' cs).mapM parseLine).map (fun ls => ls.filterMap id)

end Sys2Proof.Machine
end

