-- ==== Sys2Proof/Machine/Instances.lean ====
section
/-! DEFINITION. Several blocks side by side: their number is unbounded and they share no state (00_scope.md R8,
60_exceptions.md R183). -/

namespace Sys2Proof.Machine

/-- Any number of blocks, each with its own host, and all with the same `LEN_W` (DESIGN CHOICE, log 20). -/
abbrev Blocks := List State

/-- Block `k` takes one step: only its own state is read or written (00_scope.md R8). -/
def stepBlock (k : Nat) (bs : Blocks) : Host.Outcome Blocks Fault Refusal :=
  match bs[k]? with
  | none => .refused (.noSuchBlock k)
  | some s =>
    match step s with
    | .next s' => .next (bs.set k s')
    | .fault f => .fault f
    | .refused r => .refused r

end Sys2Proof.Machine
end

