-- ==== Sys2Proof/WellFormed.lean ====
section
/-! DEFINITION. Which terms are instructions and which host accesses are legal. -/

namespace Sys2Proof

/-- No command word carries an immediate, register number or address (30_encoding.md R75), so a command has no
operand that could be out of range: each of the ten constructors is well-formed. What can be ill-formed here is a
command WORD (the decoder refuses it, Decode.lean) or a host access (below). -/
def Instr.wellFormed : Instr → Bool
  | .sizeS | .encS | .decS | .encrS | .decrS | .sizeO | .encO | .decO | .encrO | .decrO => true

/-- A legal host access: a view of at most `2^LEN_W - 1` bytes (45_host_access.md R154) and a register number of
at most 3 (45_host_access.md R158). -/
def HostEvent.wellFormed : HostEvent → Bool
  | .write (.beyond _) => false
  | .write (.cmd _) | .write (.val _) | .write (.count _) | .write (.status _) => true
  | .read n => decide (n ≤ 3)
  | .setbuf bytes => Config.lenFits bytes.length
  | .getbuf => true
  | .reset => true

end Sys2Proof
end

