-- ==== Sys2Proof/Safety.lean ====
section
/-! DEFINITION. What claims about the block are stated in: the invariant of its state, the layout of an encoded byte,
where a view's first terminal byte is, the accumulator in closed form, and the deliveries of a progressive decode.
The layouts and the closed forms are written from 30_encoding.md R60, R63, R64 and from the closed forms of the
decode rules, not from the pseudocode the machine follows. -/

namespace Sys2Proof.Machine

/-- What every state of a block satisfies. From the spec: the view's length is at most `2^LEN_W - 1` (10_state.md R29),
COUNT fits its `LEN_W` bits (10_state.md R24), and STATUS holds at most one of its three bits and no reserved one
(10_state.md R25). The model's own: the cells that hold the view are in canonical form (DESIGN CHOICE, log 3), and COUNT
is a number that has to be kept within its bits (DESIGN CHOICE, log 2). -/
structure State.Inv (s : State) : Prop where
  view_canonical : s.buf.wf = true
  len_fits : s.buf.len < 2 ^ Config.lenW
  count_fits : s.count < 2 ^ Config.lenW
  status_legal : statusLegal s.status = true

/-! ## Encodings -/

/-- The encoded byte with continuation flag `C` and group `g` (30_encoding.md R60). -/
def encodedByte (C : Bool) (g : BitVec 7) : Byte := BitVec.ofBool C ++ g

/-- Byte `k` of the n-byte standard encoding of `v`: group `n - 1 - k`, where group `i` is `v[7i+6:7i]` with bits above
63 read as 0; the last byte is the terminal one (30_encoding.md R63). -/
def layoutS (v : Word) (n k : Nat) : Byte := encodedByte (decide (k + 1 < n)) (v.extractLsb' (7 * (n - 1 - k)) 7)

/-- Byte `k` of the n-byte overflow-safe encoding of `v` (30_encoding.md R64): with bit 0 set, byte 0 is 0xC0 and byte
`k` carries `v[7k:7k-6]`; with bit 0 clear, byte `k` carries the seven bits of `v` from bit `64 - 7n + 7k` up. -/
def layoutO (v : Word) (n k : Nat) : Byte :=
  if v.getLsbD 0 then
    if k = 0 then 0xC0 else encodedByte (decide (k + 1 < n)) (v.extractLsb' (7 * k - 6) 7)
  else encodedByte (decide (k + 1 < n)) (v.extractLsb' (64 - 7 * n + 7 * k) 7)

/-- The bytes `bs`, in reading order, end with the first terminal byte among them: all but the last have the
continuation flag set and the last has it clear (30_encoding.md R61, R62). -/
def selfDelimited (bs : List Byte) : Prop :=
  ∃ init last, bs = init ++ [last] ∧ (∀ b ∈ init, contFlag b = true) ∧ contFlag last = false

/-! ## Decodes -/

/-- The k-th byte of the view in reading order (30_encoding.md R61). -/
def Memory.nth (m : Memory) (d : Direction) (k : Nat) : Byte := m.byteAt (place d m.len k)

/-- The first terminal byte of the view in reading order is the t-th, counted from 0 (30_encoding.md R61). -/
def Memory.FirstTerminal (m : Memory) (d : Direction) (t : Nat) : Prop :=
  t < m.len ∧ (∀ k < t, (m.nth d k).getLsbD 7 = true) ∧ (m.nth d t).getLsbD 7 = false

/-- No byte of the view is terminal. -/
def Memory.NoTerminal (m : Memory) (d : Direction) : Prop := ∀ k < m.len, (m.nth d k).getLsbD 7 = true

/-- The group of the k-th byte in reading order, as a number. -/
def Memory.nthGroup (m : Memory) (d : Direction) (k : Nat) : Nat := (m.nth d k).toNat % 128

/-- VAL after the standard variant has consumed `n` bytes from `v0`:
`(VAL0 * 2^(7n) + sum_k g_k * 2^(7(n-1-k))) mod 2^64` (40_standard_codec.md R85). -/
def accumulatedS (m : Memory) (d : Direction) (n : Nat) (v0 : Word) : Word :=
  BitVec.ofNat 64 (v0.toNat * 2 ^ (7 * n) + ∑ k ∈ Finset.range n, m.nthGroup d k * 2 ^ (7 * (n - 1 - k)))

/-- The group `g` of byte `j` of `n` bytes at its place in VAL: at bit `57 - 7(n-1-j)`, shifted right by the distance
where that is negative (42_overflow_safe_codec.md R125). -/
def placedO (n j g : Nat) : Word :=
  if 7 * (n - 1 - j) ≤ 57 then BitVec.ofNat 64 g <<< (57 - 7 * (n - 1 - j))
  else BitVec.ofNat 64 g >>> (7 * (n - 1 - j) - 57)

/-- VAL after the overflow-safe variant has consumed `n` bytes from `v0`: `(VAL0 >> 7n) |` the placed groups
(42_overflow_safe_codec.md R128, R125). -/
def accumulatedO (m : Memory) (d : Direction) (n : Nat) (v0 : Word) : Word :=
  (List.range n).foldl (fun acc j => acc ||| placedO n j (m.nthGroup d j)) (v0 >>> (7 * n))

/-- Deliver pieces of an encoding one after another, each attached and then decoded by command `i`; the states after
each (40_standard_codec.md R87: "`SETBUF p_i; DEC.S` for `i = 1..r`"). -/
def deliver (i : Instr) : List (List Byte) → State → Option (List State)
  | [], _ => some []
  | p :: ps, s =>
    match performAll [.setbuf p, HostEvent.cmd (encode i)] s with
    | .next t => (deliver i ps t).map (t :: ·)
    | .fault _ => none
    | .refused _ => none

end Sys2Proof.Machine
end

