-- ==== Sys2Proof/Certificates/Slice0/Obligations.lean ====
section
/-! DEFINITION. The statements about the block, for the provers. -/

open Sys2Proof Sys2Proof.Machine

/-! ## Command words -/

/-- 30_encoding.md R79: the ten rows, and every other word is reserved. -/
def Obligations.CommandTableDecodes : Prop :=
  decode 0x00 = .command .sizeS ∧ decode 0x01 = .command .encS ∧ decode 0x02 = .command .decS ∧
  decode 0x03 = .command .encrS ∧ decode 0x04 = .command .decrS ∧ decode 0x08 = .command .sizeO ∧
  decode 0x09 = .command .encO ∧ decode 0x0A = .command .decO ∧ decode 0x0B = .command .encrO ∧
  decode 0x0C = .command .decrO ∧
  ∀ c : Byte, c.toNat ∉ [0x00, 0x01, 0x02, 0x03, 0x04, 0x08, 0x09, 0x0A, 0x0B, 0x0C] → ∃ why, decode c = .reserved why

/-- 30_encoding.md R70, R79: the encoder and the decoder agree on every well-formed command, through both of the
decoder's faces, and no other word decodes to it. -/
def Obligations.DecodeOfEncodeIsTheCommand : Prop :=
  ∀ i : Instr, i.wellFormed = true →
    decode (encode i) = .command i ∧ decodeTableWord 8 (encode i).toNat = some i ∧
    ∀ c : Byte, decode c = .command i → c = encode i

/-- 30_encoding.md R74: legal exactly when `RES = 0000` and `OP <= 100`: 10 legal words, 246 reserved. -/
def Obligations.LegalWordsAreExactlyTen : Prop :=
  (∀ c : Byte, (∃ i, decode c = .command i) ↔ c.extractLsb' 4 4 = 0 ∧ (c.extractLsb' 0 3).toNat ≤ 4) ∧
  ((List.range 256).filter (fun n => legalWord (BitVec.ofNat 8 n))).length = 10 ∧
  ((List.range 256).filter (fun n => !legalWord (BitVec.ofNat 8 n))).length = 246

/-! ## Reset -/

/-- 10_state.md R30 to R33: the state after reset. -/
def Obligations.ResetStateIsEmpty : Prop :=
  State.reset.val = 0 ∧ State.reset.count = 0 ∧ State.reset.status = 0x00 ∧ State.reset.buf.len = 0

/-- 70_reset_and_hazards.md R190: the reset event, from any state. That it leaves the host's own side of the port alone
is DEDUCED (log 14). -/
def Obligations.ResetEventClearsTheBlock : Prop :=
  ∀ s : State, perform .reset s =
    .next { s with val := 0, count := 0, status := 0x00, buf := State.reset.buf }

/-- 70_reset_and_hazards.md R192: after reset "every encode fails with a capacity error, every forward decode returns
incomplete with `COUNT = 0`, and every reversed decode fails". The encoded size of VAL = 0 is 1. The clause is R192's
own inference, marked "[derived: from rules R84, R85, R100 and R101]". -/
def Obligations.CommandsRightAfterReset : Prop :=
  ∀ s : State,
    (∀ i ∈ [Instr.encS, .encrS, .encO, .encrO],
      exec i (resetBlock s) = .next { resetBlock s with count := 1, status := 0x02 }) ∧
    (∀ i ∈ [Instr.decS, .decO], exec i (resetBlock s) = .next { resetBlock s with count := 0, status := 0x00 }) ∧
    (∀ i ∈ [Instr.decrS, .decrO], exec i (resetBlock s) = .next { resetBlock s with count := 0, status := 0x02 })

/-! ## Steps -/

/-- 30_encoding.md R78, 00_scope.md R12: a step performs the host's oldest pending access. With none pending the state
stands still: DEDUCED from 60_exceptions.md R184 (log 5); and reset comes only from that list, the model's choice (log 19). -/
def Obligations.StepPerformsTheOldestAccess : Prop :=
  ∀ s : State, (s.pending = [] → step s = .next s) ∧
    ∀ e es, s.pending = e :: es → step s = perform e { s with pending := es }

/-- 45_host_access.md R156: when the pending write of CMD holds a word that decodes to a well-formed command, the step
is that command, at the state that no longer has the access pending. The pending list is the model's own (log 4). -/
def Obligations.StepRunsTheDecodedCommand : Prop :=
  ∀ (s : State) (c : Byte) (i : Instr) (es : List HostEvent),
    s.pending = HostEvent.cmd c :: es → decode c = .command i → i.wellFormed = true →
    step s = exec i { s with pending := es }

/-- The placed command word is what the next step runs (log 4). That placing a word is a pending write of CMD is the
model's choice. -/
def Obligations.PlacedWordRunsNext : Prop :=
  ∀ (s : State) (i : Instr), step (s.withFetchWord 8 (encode i).toNat) = exec i s

/-- 30_encoding.md R78: as many steps as there are pending accesses end in the state after the last of them, or stop
where it stops. The pending list is the model's own (log 4). -/
def Obligations.StepsRunTheAccessSequence : Prop :=
  ∀ (es : List HostEvent) (s : State),
    Host.Core.run Sys2Proof.core es.length { s with pending := es } = performAll es { s with pending := [] }

/-- 30_encoding.md R77, R78: what the assembler's lines stand for, pseudo-instructions included. R77 writes `CMD` for
reserved words; that a `CMD` line may hold a legal word too is the model's choice (log 16). -/
def Obligations.AssemblerLinesExpand : Prop :=
  (∀ i : Instr, assembleLine (.command i) = [HostEvent.cmd (encode i)]) ∧
  (∀ c : Byte, assembleLine (.cmd c) = [HostEvent.cmd c]) ∧
  (∀ x : Word, assembleLine (.wrval x) = [HostEvent.wrval x]) ∧
  (∀ bs : List Byte, assembleLine (.setbuf (.list bs)) = [.setbuf bs]) ∧
  (∀ n : Nat, assembleLine (.setbuf (.zero n)) = [.setbuf (List.replicate n 0x00)]) ∧
  (∀ (n : Nat) (b : Byte), assembleLine (.setbuf (.fill n b)) = [.setbuf (List.replicate n b)]) ∧
  assembleLine .rdval = [.read 1] ∧ assembleLine .rdcnt = [.read 2] ∧ assembleLine .rdstat = [.read 3] ∧
  assembleLine .getbuf = [.getbuf] ∧
  assembleLine .clrval = [HostEvent.wrval 0] ∧
  assembleLine .fdecS = [HostEvent.wrval 0, HostEvent.cmd 0x02] ∧
  assembleLine .fdecO = [HostEvent.wrval 0, HostEvent.cmd 0x0A] ∧
  assembleLine .fdecrS = [HostEvent.wrval 0, HostEvent.cmd 0x04] ∧
  assembleLine .fdecrO = [HostEvent.wrval 0, HostEvent.cmd 0x0C]

/-- 20_memory.md R42, 00_scope.md R11: no step makes an access outside the view, from any state. That such
an access would be a fault is the model's choice (log 11). -/
def Obligations.NoStepLeavesTheView : Prop :=
  ∀ (s : State) (f : Fault), step s ≠ .fault f

/-- 45_host_access.md R154, R158: an access completes exactly when it is legal; the others are refused. -/
def Obligations.ExactlyTheLegalAccessesComplete : Prop :=
  ∀ (e : HostEvent) (s : State),
    (e.wellFormed = true → ∃ t, perform e s = .next t) ∧ (e.wellFormed = false → ∃ r, perform e s = .refused r)

/-- The invariant holds after reset: LEN and COUNT within `LEN_W` bits, at most one STATUS bit and no reserved one
(10_state.md R24, R25, R29), and the view's cells canonical, which is the model's choice (log 3). -/
def Obligations.ResetStateMeetsTheInvariant : Prop := State.reset.Inv

/-- Every step keeps the invariant: LEN and COUNT within `LEN_W` bits, at most one STATUS bit and no reserved one
(10_state.md R24, R25, R29), and the view's cells canonical, which is the model's choice (log 3). -/
def Obligations.EveryStepKeepsTheInvariant : Prop :=
  ∀ s t : State, s.Inv → step s = .next t → t.Inv

/-! ## Outcomes and errors -/

/-- 60_exceptions.md R170: each command ends in one of its outcomes, and STATUS says which. -/
def Obligations.EveryCommandEndsInOneOutcome : Prop :=
  ∀ (c : Byte) (s : State), ∃ t, perform (HostEvent.cmd c) s = .next t ∧
    (∀ i, decode c = .command i →
      (i ∈ [Instr.sizeS, .sizeO] → t.status = 0x00) ∧
      (i ∈ [Instr.encS, .encrS, .encO, .encrO] → t.status = 0x00 ∨ t.status = 0x02) ∧
      (i ∈ [Instr.decS, .decO] → t.status = 0x01 ∨ t.status = 0x00) ∧
      (i ∈ [Instr.decrS, .decrO] → t.status = 0x01 ∨ t.status = 0x02)) ∧
    ((∀ i, decode c ≠ .command i) → t.status = 0x04)

/-- 60_exceptions.md R175: a reserved word sets STATUS to ILL and changes nothing else. -/
def Obligations.ReservedWordOnlySetsIll : Prop :=
  ∀ (c : Byte) (s : State), (c >>> 4 ≠ 0 ∨ c &&& 7 = 5 ∨ c &&& 7 = 6 ∨ c &&& 7 = 7) →
    perform (HostEvent.cmd c) s = .next { s with status := 0x04 }

/-! ## Size queries -/

/-- 40_standard_codec.md R80, R83: COUNT is `max(1, ceil(bitlength(VAL) / 7))`, STATUS is 0, and nothing else changes.
The closed form is R80's own inference, marked "[derived]". -/
def Obligations.SizeSIsTheCeilingOfBitlength : Prop :=
  decode 0x00 = .command .sizeS ∧
  ∀ s : State, exec .sizeS s = .next { s with count := max 1 ((Nat.size s.val.toNat + 6) / 7), status := 0x00 }

/-- 42_overflow_safe_codec.md R124, R126: with `p` the position of VAL's lowest set bit COUNT is `ceil((64 - p) / 7)`,
and 1 for VAL = 0; it is 10 exactly when bit 0 is set; STATUS is 0 and nothing else changes. The closed form is R124's
own inference, marked "[derived: from rule R121]". -/
def Obligations.SizeOFollowsTheLowestSetBit : Prop :=
  decode 0x08 = .command .sizeO ∧
  ∀ s : State,
    (s.val = 0 → exec .sizeO s = .next { s with count := 1, status := 0x00 }) ∧
    (∀ p q, s.val.toNat = 2 ^ p * (2 * q + 1) →
      exec .sizeO s = .next { s with count := (64 - p + 6) / 7, status := 0x00 }) ∧
    (∃ t, exec .sizeO s = .next t ∧ (t.count = 10 ↔ s.val.getLsbD 0 = true))

/-! ## Encodes -/

/-- 40_standard_codec.md R84, 30_encoding.md R63: `ENC.S` puts the groups at `0 .. n-1`, most significant first, when
`LEN >= n`, and is a capacity error with COUNT = n and no byte written when `LEN < n`. The k-th byte is R81's `((v >>
7i) & 0x7F) | ..` for `i = n-1-k`. -/
def Obligations.EncSWritesOrReportsCapacity : Prop :=
  decode 0x01 = .command .encS ∧
  ∀ s : State,
    (sizeS s.val ≤ s.buf.len →
      ∃ m, exec .encS s = .next { s with buf := m, count := sizeS s.val, status := 0x00 } ∧ m.len = s.buf.len ∧
        ∀ i, m.memRead i = if i < sizeS s.val then some (layoutS s.val (sizeS s.val) i) else s.buf.memRead i) ∧
    (s.buf.len < sizeS s.val → exec .encS s = .next { s with count := sizeS s.val, status := 0x02 })

/-- 41_standard_reversed.md R100, 30_encoding.md R65: `ENCR.S` mirrors the same bytes into `LEN-n .. LEN-1`. -/
def Obligations.EncrSWritesOrReportsCapacity : Prop :=
  decode 0x03 = .command .encrS ∧
  ∀ s : State,
    (sizeS s.val ≤ s.buf.len →
      ∃ m, exec .encrS s = .next { s with buf := m, count := sizeS s.val, status := 0x00 } ∧ m.len = s.buf.len ∧
        ∀ i, m.memRead i =
          if s.buf.len - sizeS s.val ≤ i ∧ i < s.buf.len then some (layoutS s.val (sizeS s.val) (s.buf.len - 1 - i))
          else s.buf.memRead i) ∧
    (s.buf.len < sizeS s.val → exec .encrS s = .next { s with count := sizeS s.val, status := 0x02 })

/-- 42_overflow_safe_codec.md R127, 30_encoding.md R64: `ENC.O` puts the groups at `0 .. n-1`, least significant
first. The j-th byte is spelled as R64 spells it, the spec's own inference from R122. -/
def Obligations.EncOWritesOrReportsCapacity : Prop :=
  decode 0x09 = .command .encO ∧
  ∀ s : State,
    (sizeO s.val ≤ s.buf.len →
      ∃ m, exec .encO s = .next { s with buf := m, count := sizeO s.val, status := 0x00 } ∧ m.len = s.buf.len ∧
        ∀ i, m.memRead i = if i < sizeO s.val then some (layoutO s.val (sizeO s.val) i) else s.buf.memRead i) ∧
    (s.buf.len < sizeO s.val → exec .encO s = .next { s with count := sizeO s.val, status := 0x02 })

/-- 42_overflow_safe_codec.md R129, 30_encoding.md R65: `ENCR.O` mirrors the same bytes into `LEN-n .. LEN-1`. The j-th
byte is spelled as R64 spells it, the spec's own inference from R122, which it marks "[derived]" too. -/
def Obligations.EncrOWritesOrReportsCapacity : Prop :=
  decode 0x0B = .command .encrO ∧
  ∀ s : State,
    (sizeO s.val ≤ s.buf.len →
      ∃ m, exec .encrO s = .next { s with buf := m, count := sizeO s.val, status := 0x00 } ∧ m.len = s.buf.len ∧
        ∀ i, m.memRead i =
          if s.buf.len - sizeO s.val ≤ i ∧ i < s.buf.len then some (layoutO s.val (sizeO s.val) (s.buf.len - 1 - i))
          else s.buf.memRead i) ∧
    (s.buf.len < sizeO s.val → exec .encrO s = .next { s with count := sizeO s.val, status := 0x02 })

/-- 30_encoding.md R62: every encoding written is 1 to 10 bytes, as many as the size, and exactly its last byte in
forward order is terminal. R62 is the spec's own inference, marked "[derived: from rules R81 and R122]". -/
def Obligations.WrittenEncodingsHaveOneTerminalByte : Prop :=
  ∀ x ∈ [(Instr.encS, Direction.forward, sizeS), (.encrS, .reversed, sizeS), (.encO, .forward, sizeO), (.encrO, .reversed, sizeO)],
    ∀ s t : State, exec x.1 s = .next t → t.status = 0x00 →
      t.count = x.2.2 s.val ∧ 1 ≤ t.count ∧ t.count ≤ 10 ∧
      ∀ k < t.count, ∃ b : Byte, t.buf.memRead (place x.2.1 t.buf.len k) = some b ∧ (b.getLsbD 7 = true ↔ k + 1 < t.count)

/-- 30_encoding.md R66: 0 encodes as the single byte 0x00 in both variants, forward and reversed. -/
def Obligations.ZeroEncodesAsOneZeroByte : Prop :=
  ∀ x ∈ [(Instr.encS, Direction.forward), (.encrS, .reversed), (.encO, .forward), (.encrO, .reversed)],
    ∀ s : State, s.val = 0 → 1 ≤ s.buf.len →
      ∃ m, exec x.1 s = .next { s with buf := m, count := 1, status := 0x00 } ∧
        m.memRead (place x.2 s.buf.len 0) = some 0x00 ∧
        ∀ i, i ≠ place x.2 s.buf.len 0 → m.memRead i = s.buf.memRead i

/-- 40_standard_codec.md R88, 42_overflow_safe_codec.md R132: for VAL not 0 the first byte written has a nonzero
group. Both are the spec's own inferences, marked "[derived]". -/
def Obligations.NoEncodingBeginsWithAZeroGroup : Prop :=
  ∀ x ∈ [(Instr.encS, Direction.forward), (.encrS, .reversed), (.encO, .forward), (.encrO, .reversed)],
    ∀ s t : State, exec x.1 s = .next t → t.status = 0x00 → s.val ≠ 0 →
      ∃ b : Byte, t.buf.memRead (place x.2 t.buf.len 0) = some b ∧ b &&& 0x7F ≠ 0

/-! ## Decodes -/

/-- 40_standard_codec.md R85: `DEC.S` consumes up to and including the first terminal byte, or the whole view, which is
an incomplete result; VAL is R85's closed form and nothing but VAL, COUNT and STATUS changes. -/
def Obligations.DecSAccumulatesUpToTheTerminalByte : Prop :=
  decode 0x02 = .command .decS ∧
  ∀ s : State,
    (∀ t, s.buf.FirstTerminal .forward t →
      exec .decS s = .next { s with val := accumulatedS s.buf .forward (t + 1) s.val, count := t + 1, status := 0x01 }) ∧
    (s.buf.NoTerminal .forward →
      exec .decS s = .next { s with val := accumulatedS s.buf .forward s.buf.len s.val, count := s.buf.len, status := 0x00 })

/-- 41_standard_reversed.md R101: `DECR.S` reads downward from `LEN-1`; a view with no terminal byte is a capacity error
with COUNT = LEN and the accumulation of every byte in VAL. -/
def Obligations.DecrSAccumulatesDownToTheTerminalByte : Prop :=
  decode 0x04 = .command .decrS ∧
  ∀ s : State,
    (∀ t, s.buf.FirstTerminal .reversed t →
      exec .decrS s = .next { s with val := accumulatedS s.buf .reversed (t + 1) s.val, count := t + 1, status := 0x01 }) ∧
    (s.buf.NoTerminal .reversed →
      exec .decrS s = .next { s with val := accumulatedS s.buf .reversed s.buf.len s.val, count := s.buf.len, status := 0x02 })

/-- 42_overflow_safe_codec.md R128: `DEC.O`, with the groups placed as R125 says. R125 is the spec's own inference
from R121 to R123. -/
def Obligations.DecOPlacesTheGroupsAtTheTop : Prop :=
  decode 0x0A = .command .decO ∧
  ∀ s : State,
    (∀ t, s.buf.FirstTerminal .forward t →
      exec .decO s = .next { s with val := accumulatedO s.buf .forward (t + 1) s.val, count := t + 1, status := 0x01 }) ∧
    (s.buf.NoTerminal .forward →
      exec .decO s = .next { s with val := accumulatedO s.buf .forward s.buf.len s.val, count := s.buf.len, status := 0x00 })

/-- 42_overflow_safe_codec.md R130: `DECR.O` applies `upd_O` (R123) to each byte read. The closed form of that, the groups
placed as R125 says and VAL shifted down as R128 says, is R125's: the spec's own inference from R121 to R123. -/
def Obligations.DecrOPlacesTheGroupsAtTheTop : Prop :=
  decode 0x0C = .command .decrO ∧
  ∀ s : State,
    (∀ t, s.buf.FirstTerminal .reversed t →
      exec .decrO s = .next { s with val := accumulatedO s.buf .reversed (t + 1) s.val, count := t + 1, status := 0x01 }) ∧
    (s.buf.NoTerminal .reversed →
      exec .decrO s = .next { s with val := accumulatedO s.buf .reversed s.buf.len s.val, count := s.buf.len, status := 0x02 })

/-- 30_encoding.md R61, 20_memory.md R52: the bytes after the first terminal one in reading order are not read: two
states that agree on VAL and on the bytes up to it decode to the same VAL, COUNT and STATUS. -/
def Obligations.BytesAfterTheTerminalAreNotRead : Prop :=
  ∀ x ∈ [(Instr.decS, Direction.forward), (.decO, .forward), (.decrS, .reversed), (.decrO, .reversed)],
    ∀ (s s' : State) (t : Nat), s.buf.FirstTerminal x.2 t → s'.val = s.val → t < s'.buf.len →
      (∀ k ≤ t, s'.buf.nth x.2 k = s.buf.nth x.2 k) →
      ∃ u u', exec x.1 s = .next u ∧ exec x.1 s' = .next u' ∧
        u'.val = u.val ∧ u'.count = u.count ∧ u'.status = u.status ∧ u'.buf = s'.buf

/-- 30_encoding.md R68: `p` bytes 0x80 before an encoding in reading order, from VAL = 0, leave the decoded value
unchanged and add `p` to COUNT, in both variants, forward and reversed. R68 is the spec's own inference, marked
"[derived: from rules R82 and R123]". -/
def Obligations.LeadingExtensionBytesAreHarmless : Prop :=
  ∀ (p : Nat) (s s' : State), s.val = 0 → s'.val = 0 →
    (s'.buf.toBytes = List.replicate p 0x80 ++ s.buf.toBytes → ∀ i ∈ [Instr.decS, .decO],
      ∃ u u', exec i s = .next u ∧ exec i s' = .next u' ∧ u'.val = u.val ∧ u'.count = u.count + p ∧ u'.status = u.status) ∧
    (s'.buf.toBytes = s.buf.toBytes ++ List.replicate p 0x80 → ∀ i ∈ [Instr.decrS, .decrO],
      ∃ u u', exec i s = .next u ∧ exec i s' = .next u' ∧ u'.val = u.val ∧ u'.count = u.count + p ∧ u'.status = u.status)

/-- 40_standard_codec.md R89, 42_overflow_safe_codec.md R128: ten groups or more replace the whole accumulator,
whatever it held. R89 is the spec's own inference, marked "[derived]". -/
def Obligations.TenGroupsReplaceTheAccumulator : Prop :=
  ∀ x ∈ [(Instr.decS, Direction.forward), (.decO, .forward), (.decrS, .reversed), (.decrO, .reversed)],
    ∀ (s : State) (v : Word) (t : Nat), s.buf.FirstTerminal x.2 t → 9 ≤ t →
      ∃ u u', exec x.1 s = .next u ∧ exec x.1 { s with val := v } = .next u' ∧ u' = u

/-! ## Laws of the codecs -/

/-- 40_standard_codec.md R86: the standard forward round trip. R86 is the spec's own inference, marked "[derived: from
rules R81, R82, R84 and R85]". -/
def Obligations.StandardForwardRoundTrip : Prop :=
  ∀ (v : Word) (s : State), sizeS v ≤ s.buf.len →
    ∃ m, performAll [HostEvent.wrval v, HostEvent.cmd 0x01, HostEvent.wrval 0, HostEvent.cmd 0x02] s =
      .next { s with val := v, count := sizeS v, status := 0x01, buf := m } ∧ m.len = s.buf.len

/-- 41_standard_reversed.md R103: the standard reversed round trip, whatever the bytes below the encoding hold. R103
is the spec's own inference, marked "[derived: from rules R100 and R101]". -/
def Obligations.StandardReversedRoundTrip : Prop :=
  ∀ (v : Word) (s : State), sizeS v ≤ s.buf.len →
    ∃ m, performAll [HostEvent.wrval v, HostEvent.cmd 0x03, HostEvent.wrval 0, HostEvent.cmd 0x04] s =
      .next { s with val := v, count := sizeS v, status := 0x01, buf := m } ∧ m.len = s.buf.len

/-- 42_overflow_safe_codec.md R131: the overflow-safe round trips, forward and reversed, of every 64-bit value. R131
is the spec's own inference, marked "[derived: from rules R122, R123, R125, R127, R128, R129 and R130]". -/
def Obligations.OverflowSafeRoundTrips : Prop :=
  ∀ (v : Word) (s : State), sizeO v ≤ s.buf.len →
    (∃ m, performAll [HostEvent.wrval v, HostEvent.cmd 0x09, HostEvent.wrval 0, HostEvent.cmd 0x0A] s =
      .next { s with val := v, count := sizeO v, status := 0x01, buf := m } ∧ m.len = s.buf.len) ∧
    (∃ m, performAll [HostEvent.wrval v, HostEvent.cmd 0x0B, HostEvent.wrval 0, HostEvent.cmd 0x0C] s =
      .next { s with val := v, count := sizeO v, status := 0x01, buf := m } ∧ m.len = s.buf.len)

/-- 40_standard_codec.md R87, 42_overflow_safe_codec.md R132: an encoding delivered in pieces, cut at any boundaries,
decodes from 0 to the VAL of decoding it whole, the COUNTs sum to its length, and COMPLETE is set by the last piece
alone. Pieces may be empty, but not the last: an empty piece after the terminal byte would itself end with STATUS 0x00,
and R194 tells the host not to feed after COMPLETE. Both are the spec's own inferences, marked "[derived]". -/
def Obligations.ProgressiveDecodeEqualsWhole : Prop :=
  ∀ i ∈ [Instr.decS, .decO], ∀ (pieces : List (List Byte)) (rest : List Byte) (s : State),
    pieces.getLast? ≠ some [] → selfDelimited pieces.flatten → (pieces.flatten ++ rest).length < 2 ^ Config.lenW →
    ∃ ts w, deliver i pieces { s with val := 0 } = some ts ∧
      performAll [.setbuf (pieces.flatten ++ rest), HostEvent.cmd (encode i)] { s with val := 0 } = .next w ∧
      ts.getLast?.map State.val = some w.val ∧
      (ts.map State.count).sum = pieces.flatten.length ∧ w.count = pieces.flatten.length ∧
      ts.map State.status = List.replicate (pieces.length - 1) 0x00 ++ [0x01]

/-- 41_standard_reversed.md R104 for the standard pair; the same of the overflow-safe pair, from 42_overflow_safe_codec.md
R127 to R130 and 30_encoding.md R65: a reversed decode is the forward decode of
the view turned round, where it has a terminal byte; and the bytes a reversed encode writes, read downward from
`LEN-1`, are those the forward encode writes upward from 0. R104 is the spec's own inference, marked "[derived: from
rules R84, R85, R100 and R101]". -/
def Obligations.ReversedAgreesWithForward : Prop :=
  (∀ x ∈ [(Instr.decrS, Instr.decS), (.decrO, .decO)], ∀ (s s' : State) (t : Nat),
    s'.val = s.val → s'.buf.toBytes = s.buf.toBytes.reverse → s'.buf.FirstTerminal .forward t →
    ∃ u u', exec x.1 s = .next u ∧ exec x.2 s' = .next u' ∧ u.val = u'.val ∧ u.count = u'.count ∧
      u.status = 0x01 ∧ u'.status = 0x01) ∧
  (∀ x ∈ [(Instr.encrS, Instr.encS, sizeS), (.encrO, .encO, sizeO)], ∀ s : State, x.2.2 s.val ≤ s.buf.len →
    ∃ u u', exec x.1 s = .next u ∧ exec x.2.1 s = .next u' ∧
      ∀ k < x.2.2 s.val, u.buf.memRead (s.buf.len - 1 - k) = u'.buf.memRead k)

/-! ## What commands read and write -/

/-- 30_encoding.md R75, 10_state.md R29: which of VAL and the view each command may write, and that no command changes
LEN or the host's side of the port. -/
def Obligations.CommandsWriteOnlyTheirOperands : Prop :=
  ∀ (i : Instr) (s t : State), exec i s = .next t →
    t.buf.len = s.buf.len ∧ t.pending = s.pending ∧ t.reply = s.reply ∧ t.draws = s.draws ∧
    (i ∈ [Instr.sizeS, .sizeO] → t.val = s.val ∧ t.buf = s.buf) ∧
    (i ∈ [Instr.encS, .encO, .encrS, .encrO] → t.val = s.val) ∧
    (i ∈ [Instr.decS, .decO, .decrS, .decrO] → t.buf = s.buf)

/-- 10_state.md R23, 30_encoding.md R75: a command's results depend on VAL and the view alone, so nothing else is
remembered of a decode in progress. -/
def Obligations.CommandsReadOnlyValAndView : Prop :=
  ∀ (i : Instr) (s s' : State), s'.val = s.val → s'.buf = s.buf →
    ∃ t t', exec i s = .next t ∧ exec i s' = .next t' ∧
      t'.val = t.val ∧ t'.count = t.count ∧ t'.status = t.status ∧ t'.buf = t.buf

/-- 10_state.md R22, R29, 45_host_access.md R157: in a step, VAL is changed only by `WRVAL`, a decode or reset, LEN only
by `SETBUF` or reset, the view's bytes only by those or an encode, and COUNT and STATUS only by a command or reset. -/
def Obligations.OnlyTheseAccessesChangeEachRegister : Prop :=
  ∀ (e : HostEvent) (s t : State), perform e s = .next t →
    (t.val ≠ s.val → e = .reset ∨ (∃ x, e = HostEvent.wrval x) ∨
      ∃ i ∈ [Instr.decS, .decO, .decrS, .decrO], e = HostEvent.cmd (encode i)) ∧
    (t.buf.len ≠ s.buf.len → e = .reset ∨ ∃ bs, e = .setbuf bs) ∧
    (t.buf ≠ s.buf → e = .reset ∨ (∃ bs, e = .setbuf bs) ∨
      ∃ i ∈ [Instr.encS, .encO, .encrS, .encrO], e = HostEvent.cmd (encode i)) ∧
    (t.count ≠ s.count ∨ t.status ≠ s.status → e = .reset ∨ ∃ c, e = HostEvent.cmd c)

/-! ## Host accesses -/

/-- 45_host_access.md R151, R152, R153, R155, R156: what the reads return, and that they change nothing of the block. -/
def Obligations.HostReadsReturnAndChangeNothing : Prop :=
  ∀ s : State,
    perform HostEvent.rdcmd s = .next { s with reply := some (.byte 0x00) } ∧
    perform HostEvent.rdval s = .next { s with reply := some (.value s.val) } ∧
    perform HostEvent.rdcnt s = .next { s with reply := some (.number s.count) } ∧
    perform HostEvent.rdstat s = .next { s with reply := some (.byte s.status) } ∧
    ∃ bs, perform .getbuf s = .next { s with reply := some (.bytes bs) } ∧ bs.length = s.buf.len ∧
      ∀ i, bs[i]? = s.buf.memRead i

/-- 45_host_access.md R150, R157: `WRVAL` writes VAL and nothing else; writes of COUNT and STATUS are ignored. -/
def Obligations.HostWritesReachOnlyVal : Prop :=
  ∀ s : State,
    (∀ x, perform (HostEvent.wrval x) s = .next { s with val := x }) ∧
    (∀ n, perform (.write (.count n)) s = .next s) ∧ (∀ b, perform (.write (.status b)) s = .next s)

/-- 45_host_access.md R154: `SETBUF` attaches its bytes as the whole view; one longer than `2^LEN_W - 1` is refused. -/
def Obligations.SetbufAttachesItsBytes : Prop :=
  ∀ (bs : List Byte) (s : State),
    (bs.length ≤ 2 ^ Config.lenW - 1 →
      ∃ m, perform (.setbuf bs) s = .next { s with buf := m } ∧ m.len = bs.length ∧ ∀ i, m.memRead i = bs[i]?) ∧
    (2 ^ Config.lenW - 1 < bs.length → perform (.setbuf bs) s = .refused (.viewTooLong bs.length))

/-- 45_host_access.md R154, R155: `GETBUF` right after `SETBUF` returns the bytes attached. -/
def Obligations.GetbufReturnsTheAttachedBytes : Prop :=
  ∀ (bs : List Byte) (s : State), bs.length ≤ 2 ^ Config.lenW - 1 →
    ∃ t, performAll [.setbuf bs, .getbuf] s = .next t ∧ t.reply = some (.bytes bs)

/-- 45_host_access.md R158: register numbers 4 and above are refused, read or written. -/
def Obligations.UnimplementedRegistersAreRefused : Prop :=
  ∀ (k : Nat) (s : State),
    perform (.read (4 + k)) s = .refused (.registerNotImplemented (4 + k)) ∧
    perform (.write (.beyond k)) s = .refused (.registerNotImplemented (4 + k))

/-! ## The parameters' other values (not this hardware) -/

/-- 60_exceptions.md R172: under `P_FAIL_WRITE = ANY_PREFIX` a capacity-failed encode leaves a freely drawn value in
every byte of the view, whatever the draws are, keeps LEN and VAL, and reports as under `NONE`. The draws are the
model's free values (log 7). -/
def Obligations.AnyPrefixDrawsEveryViewByte : Prop :=
  ∀ x ∈ [(sizeS, encBytesS), (sizeO, encBytesO)], ∀ (d : Direction) (s : State), s.buf.len < x.1 s.val →
    ∃ m, encodeCommand .anyPrefix d x.1 x.2 s =
        .next { s with buf := m, count := x.1 s.val, status := 0x02, draws := s.draws + s.buf.len } ∧
      m.len = s.buf.len ∧ ∀ i < s.buf.len, m.memRead i = some (Config.freeByte (s.draws + i))

/-- 00_scope.md R7: under `P_REV_ACC_INIT = CLEAR` a reversed decode starts from 0; from VAL = 0 both values of the
parameter agree. -/
def Obligations.ClearStartsReversedDecodesFromZero : Prop :=
  ∀ (s : State),
    decodeReversed .clear updS s = exec .decrS { s with val := 0 } ∧
    decodeReversed .clear updO s = exec .decrO { s with val := 0 }

/-! ## Several blocks -/

/-- 00_scope.md R8, 60_exceptions.md R183: a step of one block reads and writes no other block's state. The blocks as
a list are the model's choice (log 15). -/
def Obligations.BlocksShareNoState : Prop :=
  ∀ (k : Nat) (bs bs' : Blocks), stepBlock k bs = .next bs' →
    bs'.length = bs.length ∧ (∀ j, j ≠ k → bs'[j]? = bs[j]?) ∧
    ∃ s t, bs[k]? = some s ∧ step s = .next t ∧ bs'[k]? = some t

/-- 60_exceptions.md R183: distinct blocks need no coordination: their steps can be taken in either order. The blocks
as a list are the model's choice (log 15). -/
def Obligations.DistinctBlocksCommute : Prop :=
  ∀ (j k : Nat) (bs b₁ b₂ : Blocks), j ≠ k → stepBlock j bs = .next b₁ → stepBlock k bs = .next b₂ →
    ∃ b, stepBlock k b₁ = .next b ∧ stepBlock j b₂ = .next b
end

