-- ==== Sys2Proof/Laws/Memory.lean ====
section
/-! SUPPORT. The laws of the buffer view: reads after writes, the view of a byte sequence and back, and that every
operation keeps the canonical form. -/

namespace Sys2Proof.Laws

/-- The whole test of `lenFits` is the bound of 00_scope.md R5. -/
theorem lenFits_iff (n : Nat) : Config.lenFits n = true ↔ n < 2 ^ Config.lenW := by
  have h : 2 ^ 4 ≤ 2 ^ Config.lenW := Nat.pow_le_pow_right (by decide) (by unfold Config.lenW; omega)
  simp only [Config.lenFits, Bool.or_eq_true, decide_eq_true_eq]
  omega

/-- A view of fewer than 16 bytes fits every `LEN_W`. -/
theorem lt_lenW_of_lt_16 {n : Nat} (h : n < 16) : n < 2 ^ Config.lenW :=
  (lenFits_iff n).1 (by simp [Config.lenFits, h])

end Sys2Proof.Laws

namespace Sys2Proof.Machine

/-! ## Cells -/

theorem cellByte_filter_other {i j : Nat} (h : j ≠ i) (cs : List Host.Cell) :
    cellByte (cs.filter (fun c => c.1 != i)) j = cellByte cs j := by
  induction cs with
  | nil => rfl
  | cons c cs ih =>
    by_cases hc : c.1 = i
    · have : c.1 ≠ j := fun hj => h (hj ▸ hc)
      simp [hc, cellByte, ih, Ne.symm h]
    · simp [hc, cellByte, ih]

theorem cellByte_filter_self (i : Nat) (cs : List Host.Cell) :
    cellByte (cs.filter (fun c => c.1 != i)) i = 0x00 := by
  induction cs with
  | nil => rfl
  | cons c cs ih => by_cases hc : c.1 = i <;> simp [hc, cellByte, ih]

theorem cellByte_insertCell_self {i : Nat} {b : Byte} {cs : List Host.Cell} (h : ∀ c ∈ cs, c.1 ≠ i) :
    cellByte (insertCell i b cs) i = b := by
  induction cs with
  | nil => simp [insertCell, cellByte]
  | cons c cs ih =>
    rw [insertCell]
    split
    · simp [cellByte]
    · simp [cellByte, h c (by simp), ih (fun c' hc' => h c' (by simp [hc']))]

theorem cellByte_insertCell_other {i j : Nat} (h : j ≠ i) (b : Byte) (cs : List Host.Cell) :
    cellByte (insertCell i b cs) j = cellByte cs j := by
  induction cs with
  | nil => simp [insertCell, cellByte, Ne.symm h]
  | cons c cs ih =>
    rw [insertCell]
    split
    · simp [cellByte, Ne.symm h]
    · simp [cellByte, ih]

/-- Index `i` holds the byte just put there. -/
@[simp] theorem cellByte_setCell_self (i : Nat) (b : Byte) (cs : List Host.Cell) :
    cellByte (setCell i b cs) i = b := by
  simp only [setCell]
  split
  · next hb => rw [cellByte_filter_self, hb]
  · exact cellByte_insertCell_self (fun c hc => by simpa using (List.mem_filter.1 hc).2)

/-- Every other index keeps its byte. -/
theorem cellByte_setCell_other {i j : Nat} (h : j ≠ i) (b : Byte) (cs : List Host.Cell) :
    cellByte (setCell i b cs) j = cellByte cs j := by
  simp only [setCell]
  split
  · exact cellByte_filter_other h cs
  · rw [cellByte_insertCell_other h, cellByte_filter_other h]

theorem mem_insertCell {i : Nat} {b : Byte} {cs : List Host.Cell} {c : Host.Cell} :
    c ∈ insertCell i b cs ↔ c = (i, b) ∨ c ∈ cs := by
  induction cs with
  | nil => simp [insertCell]
  | cons d cs ih =>
    rw [insertCell]
    split
    · simp
    · simp only [List.mem_cons, ih]; tauto

theorem pairwise_insertCell {i : Nat} {b : Byte} {cs : List Host.Cell} (hne : ∀ c ∈ cs, c.1 ≠ i)
    (h : cs.Pairwise (fun a b => a.1 < b.1)) : (insertCell i b cs).Pairwise (fun a b => a.1 < b.1) := by
  induction cs with
  | nil => simp [insertCell]
  | cons d cs ih =>
    rw [List.pairwise_cons] at h
    have hd := hne d (by simp)
    rw [insertCell]
    split
    · next hlt =>
      refine List.pairwise_cons.2 ⟨fun c hc => ?_, List.pairwise_cons.2 h⟩
      rcases List.mem_cons.1 hc with rfl | hc
      · exact hlt
      · exact hlt.trans (h.1 c hc)
    · next hlt =>
      refine List.pairwise_cons.2 ⟨fun c hc => ?_, ih (fun c hc => hne c (by simp [hc])) h.2⟩
      rcases mem_insertCell.1 hc with rfl | hc
      · show d.1 < i
        omega
      · exact h.1 c hc

theorem le_of_mem_cellsFrom {bs : List Byte} {k : Nat} {c : Host.Cell} (h : c ∈ cellsFrom k bs) :
    k ≤ c.1 ∧ c.1 < k + bs.length ∧ c.2 ≠ 0x00 := by
  induction bs generalizing k with
  | nil => simp [cellsFrom] at h
  | cons b bs ih =>
    rw [cellsFrom] at h
    split at h
    · have := ih h
      simp only [List.length_cons]
      exact ⟨by omega, by omega, this.2.2⟩
    · next hb =>
      rcases List.mem_cons.1 h with rfl | h
      · exact ⟨Nat.le_refl _, by simp, hb⟩
      · have := ih h
        simp only [List.length_cons]
        exact ⟨by omega, by omega, this.2.2⟩

theorem cellByte_of_forall_ne {cs : List Host.Cell} {i : Nat} (h : ∀ c ∈ cs, c.1 ≠ i) : cellByte cs i = 0x00 := by
  induction cs with
  | nil => rfl
  | cons c cs ih => simp [cellByte, h c (by simp), ih (fun c' hc' => h c' (by simp [hc']))]

theorem cellByte_cellsFrom (bs : List Byte) (k j : Nat) :
    cellByte (cellsFrom k bs) (k + j) = bs[j]?.getD 0x00 := by
  induction bs generalizing k j with
  | nil => rfl
  | cons b bs ih =>
    cases j with
    | zero =>
      rw [cellsFrom]
      split
      · next hb =>
        have := cellByte_of_forall_ne (cs := cellsFrom (k + 1) bs) (i := k)
          (fun c hc => by have := le_of_mem_cellsFrom hc; omega)
        simpa [hb] using this
      · simp [cellByte]
    | succ j =>
      have h := ih (k + 1) j
      rw [show k + 1 + j = k + (j + 1) by omega] at h
      rw [cellsFrom]
      split
      · simpa using h
      · have : k ≠ k + (j + 1) := by omega
        simpa [cellByte, this] using h

theorem pairwise_cellsFrom (bs : List Byte) (k : Nat) : (cellsFrom k bs).Pairwise (fun a b => a.1 < b.1) := by
  induction bs generalizing k with
  | nil => exact List.Pairwise.nil
  | cons b bs ih =>
    rw [cellsFrom]
    split
    · exact ih _
    · refine List.pairwise_cons.2 ⟨fun c hc => ?_, ih _⟩
      have := le_of_mem_cellsFrom hc
      show k < c.1
      omega

/-- Two canonical cell lists with equal bytes at every index are equal. -/
theorem cells_ext {cs ds : List Host.Cell} (hc : cs.Pairwise (fun a b => a.1 < b.1)) (hd : ds.Pairwise (fun a b => a.1 < b.1))
    (hc0 : ∀ c ∈ cs, c.2 ≠ 0x00) (hd0 : ∀ c ∈ ds, c.2 ≠ 0x00) (h : ∀ i, cellByte cs i = cellByte ds i) : cs = ds := by
  induction cs generalizing ds with
  | nil =>
    cases ds with
    | nil => rfl
    | cons d ds => exact absurd (by simpa [cellByte] using (h d.1).symm) (hd0 d (by simp))
  | cons c cs ih =>
    cases ds with
    | nil => exact absurd (by simpa [cellByte] using h c.1) (hc0 c (by simp))
    | cons d ds =>
      rw [List.pairwise_cons] at hc hd
      have hlow : ∀ {e : Host.Cell} {es : List Host.Cell} {i : Nat}, (∀ a ∈ es, e.1 < a.1) → i ≤ e.1 → cellByte es i = 0x00 :=
        fun ha hi => cellByte_of_forall_ne (fun a hm => by have := ha a hm; omega)
      have hfst : c.1 = d.1 := by
        rcases Nat.lt_trichotomy c.1 d.1 with hlt | heq | hgt
        · have := h c.1
          rw [cellByte, if_pos rfl, cellByte, if_neg (by omega), hlow hd.1 (by omega)] at this
          exact absurd this (hc0 c (by simp))
        · exact heq
        · have := h d.1
          rw [cellByte, if_neg (by omega), hlow hc.1 (by omega), cellByte, if_pos rfl] at this
          exact absurd this.symm (hd0 d (by simp))
      have hsnd : c.2 = d.2 := by
        have := h c.1
        rwa [cellByte, if_pos rfl, cellByte, if_pos hfst.symm] at this
      rw [Prod.ext hfst hsnd, ih hc.2 hd.2 (fun a ha => hc0 a (by simp [ha])) (fun a ha => hd0 a (by simp [ha]))]
      intro i
      by_cases hi : i ≤ c.1
      · rw [hlow hc.1 hi, hlow hd.1 (by omega)]
      · have := h i
        rwa [cellByte, if_neg (by omega), cellByte, if_neg (by omega)] at this

/-! ## The canonical form -/

theorem Memory.wf_iff (m : Memory) : m.wf = true ↔
    m.cells.Pairwise (fun a b => a.1 < b.1) ∧ ∀ c ∈ m.cells, c.1 < m.len ∧ c.2 ≠ 0x00 := by
  simp [Memory.wf]

/-- The view of a byte sequence is canonical. -/
theorem Memory.wf_ofBytes (bs : List Byte) : (Memory.ofBytes bs).wf = true := by
  refine (Memory.wf_iff _).2 ⟨pairwise_cellsFrom bs 0, fun c hc => ?_⟩
  have := le_of_mem_cellsFrom hc
  exact ⟨by simp only [Memory.ofBytes]; omega, this.2.2⟩

/-- A write keeps the view canonical. -/
theorem Memory.wf_memWrite {m m' : Memory} {i : Nat} {b : Byte} (h : m.wf = true) (hw : m.memWrite i b = some m') :
    m'.wf = true := by
  unfold Memory.memWrite at hw
  split at hw
  · next hi =>
    cases hw
    rw [Memory.wf_iff] at h ⊢
    have hp := h.1.filter (fun c => c.1 != i)
    have hmem : ∀ c ∈ m.cells.filter (fun c => c.1 != i), c ∈ m.cells ∧ c.1 ≠ i := fun c hc => by
      simpa using List.mem_filter.1 hc
    simp only [setCell]
    split
    · exact ⟨hp, fun c hc => h.2 c (hmem c hc).1⟩
    · next hb =>
      refine ⟨pairwise_insertCell (fun c hc => (hmem c hc).2) hp, fun c hc => ?_⟩
      rcases mem_insertCell.1 hc with rfl | hc
      · exact ⟨hi, hb⟩
      · exact h.2 c (hmem c hc).1
  · cases hw

/-- Canonical views of one length with equal bytes are equal. -/
theorem Memory.ext_of_wf {m m' : Memory} (h : m.wf = true) (h' : m'.wf = true) (hl : m.len = m'.len)
    (hb : ∀ i < m.len, m.byteAt i = m'.byteAt i) : m = m' := by
  rw [Memory.wf_iff] at h h'
  have hcells : m.cells = m'.cells := by
    refine cells_ext h.1 h'.1 (fun c hc => (h.2 c hc).2) (fun c hc => (h'.2 c hc).2) (fun i => ?_)
    by_cases hi : i < m.len
    · exact hb i hi
    · rw [cellByte_of_forall_ne (fun c hc => by have := (h.2 c hc).1; omega),
        cellByte_of_forall_ne (fun c hc => by have := (h'.2 c hc).1; omega)]
  cases m; cases m'; simp_all

/-! ## Reads and writes -/

@[simp] theorem Memory.ofBytes_len (bs : List Byte) : (Memory.ofBytes bs).len = bs.length := rfl

theorem Memory.memRead_of_lt {m : Memory} {i : Nat} (h : i < m.len) : m.memRead i = some (m.byteAt i) := if_pos h

theorem Memory.memRead_of_le {m : Memory} {i : Nat} (h : m.len ≤ i) : m.memRead i = none := if_neg (by omega)

theorem Memory.byteAt_ofBytes (bs : List Byte) (i : Nat) : (Memory.ofBytes bs).byteAt i = bs[i]?.getD 0x00 := by
  have h := cellByte_cellsFrom bs 0 i
  rwa [Nat.zero_add] at h

/-- Reading the view of a byte sequence gives the sequence's byte. -/
@[simp] theorem Memory.memRead_ofBytes (bs : List Byte) (i : Nat) : (Memory.ofBytes bs).memRead i = bs[i]? := by
  unfold Memory.memRead
  rw [Memory.byteAt_ofBytes, Memory.ofBytes_len]
  split
  · next h => simp [h]
  · next h => simp [Nat.le_of_not_lt h]

@[simp] theorem Memory.length_toBytes (m : Memory) : m.toBytes.length = m.len := by simp [Memory.toBytes]

@[simp] theorem Memory.getElem?_toBytes (m : Memory) (i : Nat) : m.toBytes[i]? = m.memRead i := by
  unfold Memory.toBytes Memory.memRead
  by_cases h : i < m.len <;> simp [h]

/-- `GETBUF` after `SETBUF` gives the bytes back. -/
@[simp] theorem Memory.toBytes_ofBytes (bs : List Byte) : (Memory.ofBytes bs).toBytes = bs :=
  List.ext_getElem? (fun i => by simp)

/-- A canonical view is the view of its bytes. -/
theorem Memory.ofBytes_toBytes {m : Memory} (h : m.wf = true) : Memory.ofBytes m.toBytes = m := by
  refine Memory.ext_of_wf (Memory.wf_ofBytes _) h (by simp) (fun i hi => ?_)
  simp only [Memory.ofBytes_len, Memory.length_toBytes] at hi
  rw [Memory.byteAt_ofBytes, Memory.getElem?_toBytes, Memory.memRead_of_lt hi]
  rfl

/-- What a write does, once: it succeeds exactly inside the view, keeps LEN, and changes that one byte. -/
theorem Memory.memWrite_of_lt {m : Memory} {i : Nat} (h : i < m.len) (b : Byte) :
    ∃ m', m.memWrite i b = some m' ∧ m'.len = m.len ∧ m'.memRead i = some b ∧
      (∀ j, j ≠ i → m'.memRead j = m.memRead j) ∧ (m.wf = true → m'.wf = true) := by
  refine ⟨{ m with cells := setCell i b m.cells }, if_pos h, rfl, ?_, fun j hj => ?_, fun hw => ?_⟩
  · simp [Memory.memRead, Memory.byteAt, h]
  · simp [Memory.memRead, Memory.byteAt, cellByte_setCell_other hj]
  · exact Memory.wf_memWrite hw (if_pos h)

theorem Memory.memWrite_of_le {m : Memory} {i : Nat} (h : m.len ≤ i) (b : Byte) : m.memWrite i b = none :=
  if_neg (by omega)

end Sys2Proof.Machine
end

