-- ==== Sys2Proof/Laws/State.lean ====
section
/-! SUPPORT. What each update of the state does to each field: one lemma per field per update. -/

namespace Sys2Proof.Machine.State

variable (s : State)

@[simp] theorem withVal_val (x : Word) : (s.withVal x).val = x := rfl
@[simp] theorem withVal_count (x : Word) : (s.withVal x).count = s.count := rfl
@[simp] theorem withVal_status (x : Word) : (s.withVal x).status = s.status := rfl
@[simp] theorem withVal_buf (x : Word) : (s.withVal x).buf = s.buf := rfl
@[simp] theorem withVal_pending (x : Word) : (s.withVal x).pending = s.pending := rfl
@[simp] theorem withVal_reply (x : Word) : (s.withVal x).reply = s.reply := rfl
@[simp] theorem withVal_draws (x : Word) : (s.withVal x).draws = s.draws := rfl

@[simp] theorem withCount_val (n : Nat) : (s.withCount n).val = s.val := rfl
@[simp] theorem withCount_count (n : Nat) : (s.withCount n).count = n := rfl
@[simp] theorem withCount_status (n : Nat) : (s.withCount n).status = s.status := rfl
@[simp] theorem withCount_buf (n : Nat) : (s.withCount n).buf = s.buf := rfl
@[simp] theorem withCount_pending (n : Nat) : (s.withCount n).pending = s.pending := rfl
@[simp] theorem withCount_reply (n : Nat) : (s.withCount n).reply = s.reply := rfl
@[simp] theorem withCount_draws (n : Nat) : (s.withCount n).draws = s.draws := rfl

@[simp] theorem withStatus_val (bits : List StatusBit) : (s.withStatus bits).val = s.val := rfl
@[simp] theorem withStatus_count (bits : List StatusBit) : (s.withStatus bits).count = s.count := rfl
@[simp] theorem withStatus_status (bits : List StatusBit) : (s.withStatus bits).status = statusWord bits := rfl
@[simp] theorem withStatus_buf (bits : List StatusBit) : (s.withStatus bits).buf = s.buf := rfl
@[simp] theorem withStatus_pending (bits : List StatusBit) : (s.withStatus bits).pending = s.pending := rfl
@[simp] theorem withStatus_reply (bits : List StatusBit) : (s.withStatus bits).reply = s.reply := rfl
@[simp] theorem withStatus_draws (bits : List StatusBit) : (s.withStatus bits).draws = s.draws := rfl

@[simp] theorem withBuf_val (m : Memory) : (s.withBuf m).val = s.val := rfl
@[simp] theorem withBuf_count (m : Memory) : (s.withBuf m).count = s.count := rfl
@[simp] theorem withBuf_status (m : Memory) : (s.withBuf m).status = s.status := rfl
@[simp] theorem withBuf_buf (m : Memory) : (s.withBuf m).buf = m := rfl
@[simp] theorem withBuf_pending (m : Memory) : (s.withBuf m).pending = s.pending := rfl
@[simp] theorem withBuf_reply (m : Memory) : (s.withBuf m).reply = s.reply := rfl
@[simp] theorem withBuf_draws (m : Memory) : (s.withBuf m).draws = s.draws := rfl

@[simp] theorem withReply_val (r : Reply) : (s.withReply r).val = s.val := rfl
@[simp] theorem withReply_count (r : Reply) : (s.withReply r).count = s.count := rfl
@[simp] theorem withReply_status (r : Reply) : (s.withReply r).status = s.status := rfl
@[simp] theorem withReply_buf (r : Reply) : (s.withReply r).buf = s.buf := rfl
@[simp] theorem withReply_pending (r : Reply) : (s.withReply r).pending = s.pending := rfl
@[simp] theorem withReply_reply (r : Reply) : (s.withReply r).reply = some r := rfl
@[simp] theorem withReply_draws (r : Reply) : (s.withReply r).draws = s.draws := rfl

@[simp] theorem withPending_val (es : List HostEvent) : (s.withPending es).val = s.val := rfl
@[simp] theorem withPending_count (es : List HostEvent) : (s.withPending es).count = s.count := rfl
@[simp] theorem withPending_status (es : List HostEvent) : (s.withPending es).status = s.status := rfl
@[simp] theorem withPending_buf (es : List HostEvent) : (s.withPending es).buf = s.buf := rfl
@[simp] theorem withPending_pending (es : List HostEvent) : (s.withPending es).pending = es := rfl
@[simp] theorem withPending_reply (es : List HostEvent) : (s.withPending es).reply = s.reply := rfl
@[simp] theorem withPending_draws (es : List HostEvent) : (s.withPending es).draws = s.draws := rfl

@[simp] theorem drawn_val (k : Nat) : (s.drawn k).val = s.val := rfl
@[simp] theorem drawn_count (k : Nat) : (s.drawn k).count = s.count := rfl
@[simp] theorem drawn_status (k : Nat) : (s.drawn k).status = s.status := rfl
@[simp] theorem drawn_buf (k : Nat) : (s.drawn k).buf = s.buf := rfl
@[simp] theorem drawn_pending (k : Nat) : (s.drawn k).pending = s.pending := rfl
@[simp] theorem drawn_reply (k : Nat) : (s.drawn k).reply = s.reply := rfl
@[simp] theorem drawn_draws (k : Nat) : (s.drawn k).draws = s.draws + k := rfl

end Sys2Proof.Machine.State

namespace Sys2Proof.Machine

/-! The values STATUS is written with (10_state.md R25). -/

@[simp] theorem statusWord_nil : statusWord [] = 0x00 := rfl
@[simp] theorem statusWord_complete : statusWord [.complete] = 0x01 := rfl
@[simp] theorem statusWord_capErr : statusWord [.capErr] = 0x02 := rfl
@[simp] theorem statusWord_ill : statusWord [.ill] = 0x04 := rfl

theorem statusLegal_iff (b : Byte) : statusLegal b = true ↔ b = 0x00 ∨ b = 0x01 ∨ b = 0x02 ∨ b = 0x04 := by
  simp [statusLegal, or_assoc]

/-! The two errors, field by field (60_exceptions.md R172, R175). -/

theorem raiseCapacityError_eq (n : Nat) (s : State) :
    raiseCapacityError n s = { s with count := n, status := 0x02 } := rfl

theorem raiseIllegalCommand_eq (s : State) : raiseIllegalCommand s = { s with status := 0x04 } := rfl

end Sys2Proof.Machine
end

