-- ==== Sys2Proof/Laws/Ops.lean ====
section
/-! SUPPORT. One spec lemma per shared operation of the commands: what a scan finds, what storing an encoding does,
and the next state of each kind of command. -/

namespace Sys2Proof.Machine

/-! ## Reading order -/

theorem length_readingOrder (d : Direction) (len : Nat) : (readingOrder d len).length = len := by
  simp [readingOrder]

theorem place_lt (d : Direction) {len k : Nat} (h : k < len) : place d len k < len := by
  cases d <;> simp only [place] <;> omega

theorem lt_of_mem_readingOrder {d : Direction} {len i : Nat} (h : i ∈ readingOrder d len) : i < len := by
  obtain ⟨k, hk, rfl⟩ := List.mem_map.1 h
  exact place_lt d (List.mem_range.1 hk)

/-- The view's bytes in reading order (30_encoding.md R61). -/
def Memory.inOrder (m : Memory) (d : Direction) : List Byte := (readingOrder d m.len).map m.byteAt

@[simp] theorem Memory.length_inOrder (m : Memory) (d : Direction) : (m.inOrder d).length = m.len := by
  simp [Memory.inOrder, length_readingOrder]

theorem Memory.inOrder_forward (m : Memory) : m.inOrder .forward = m.toBytes := by
  simp [Memory.inOrder, readingOrder, Memory.toBytes, place, List.map_map]

theorem Memory.inOrder_reversed (m : Memory) : m.inOrder .reversed = m.toBytes.reverse := by
  apply List.ext_getElem
  · simp
  · intro i h _
    simp only [Memory.length_inOrder] at h
    simp [Memory.inOrder, readingOrder, Memory.toBytes, place]

theorem Memory.getElem?_inOrder (m : Memory) (d : Direction) {k : Nat} (h : k < m.len) :
    (m.inOrder d)[k]? = m.memRead (place d m.len k) := by
  rw [Memory.memRead_of_lt (place_lt d h)]
  simp [Memory.inOrder, readingOrder, h]

/-! ## Scanning -/

/-- A scan as a function of the bytes read. -/
def consume (upd : Word → Byte → Word) : List Byte → Word → Scan
  | [], a => { acc := a, consumed := 0, terminal := false }
  | b :: bs, a =>
    if contFlag b then { consume upd bs (upd a b) with consumed := (consume upd bs (upd a b)).consumed + 1 }
    else { acc := upd a b, consumed := 1, terminal := true }

theorem scan_eq_consume {upd : Word → Byte → Word} {m : Memory} {is : List Nat} (h : ∀ i ∈ is, i < m.len) (a : Word) :
    scan upd m is a = some (consume upd (is.map m.byteAt) a) := by
  induction is generalizing a with
  | nil => rfl
  | cons i is ih =>
    rw [scan, Memory.memRead_of_lt (h i (by simp)), List.map_cons, consume]
    dsimp only
    split
    · rw [ih (fun j hj => h j (by simp [hj]))]; rfl
    · rfl

/-- A scan never leaves the view, and is a function of the bytes in reading order. -/
theorem scan_readingOrder (upd : Word → Byte → Word) (m : Memory) (d : Direction) (a : Word) :
    scan upd m (readingOrder d m.len) a = some (consume upd (m.inOrder d) a) :=
  scan_eq_consume (fun _ => lt_of_mem_readingOrder) a

/-- No terminal byte: every byte is consumed. -/
theorem consume_all {upd : Word → Byte → Word} {bs : List Byte} (h : ∀ b ∈ bs, contFlag b = true) (a : Word) :
    consume upd bs a = { acc := bs.foldl upd a, consumed := bs.length, terminal := false } := by
  induction bs generalizing a with
  | nil => rfl
  | cons b bs ih =>
    rw [consume, if_pos (h b (by simp)), ih (fun c hc => h c (by simp [hc]))]
    rfl

/-- A first terminal byte `t` after `bs`: it is consumed, and nothing after it is looked at. -/
theorem consume_terminal {upd : Word → Byte → Word} {bs : List Byte} {t : Byte} {rest : List Byte}
    (h : ∀ b ∈ bs, contFlag b = true) (ht : contFlag t = false) (a : Word) :
    consume upd (bs ++ t :: rest) a =
      { acc := (bs ++ [t]).foldl upd a, consumed := bs.length + 1, terminal := true } := by
  induction bs generalizing a with
  | nil => simp [consume, ht]
  | cons b bs ih =>
    rw [List.cons_append, consume, if_pos (h b (by simp)), ih (fun c hc => h c (by simp [hc]))]
    rfl

/-- Bytes hold no terminal byte, or a first one. -/
theorem terminal_cases (bs : List Byte) : (∀ b ∈ bs, contFlag b = true) ∨
    ∃ init t rest, bs = init ++ t :: rest ∧ (∀ b ∈ init, contFlag b = true) ∧ contFlag t = false := by
  induction bs with
  | nil => simp
  | cons b bs ih =>
    cases hb : contFlag b with
    | false => exact .inr ⟨[], b, bs, rfl, by simp, hb⟩
    | true =>
      rcases ih with ih | ⟨init, t, rest, rfl, hi, ht⟩
      · exact .inl (by simpa [hb] using ih)
      · exact .inr ⟨b :: init, t, rest, rfl, by simpa [hb] using hi, ht⟩

theorem consume_consumed_le (upd : Word → Byte → Word) (bs : List Byte) (a : Word) :
    (consume upd bs a).consumed ≤ bs.length := by
  rcases terminal_cases bs with h | ⟨init, t, rest, rfl, hi, ht⟩
  · rw [consume_all h]
  · rw [consume_terminal hi ht]; simp

/-! ## Storing an encoding -/

theorem place_inj {d : Direction} {len k j : Nat} (hk : k < len) (hj : j < len) (h : place d len k = place d len j) :
    k = j := by
  cases d <;> simp only [place] at h <;> omega

/-- What storing bytes from the k-th place on does, once: it succeeds when they fit, keeps LEN, puts byte `j` at its
place, and leaves every other index alone. -/
theorem storeBytes_spec (d : Direction) {bs : List Byte} {k : Nat} {m : Memory} (h : k + bs.length ≤ m.len) :
    ∃ m', storeBytes d k bs m = some m' ∧ m'.len = m.len ∧ (m.wf = true → m'.wf = true) ∧
      (∀ j (hj : j < bs.length), m'.memRead (place d m.len (k + j)) = some bs[j]) ∧
      (∀ i, (∀ j < bs.length, i ≠ place d m.len (k + j)) → m'.memRead i = m.memRead i) := by
  induction bs generalizing k m with
  | nil => exact ⟨m, rfl, rfl, id, by simp, fun _ _ => rfl⟩
  | cons b bs ih =>
    simp only [List.length_cons] at h
    have hk : place d m.len k < m.len := place_lt d (by omega)
    obtain ⟨m₁, hw, hl, hself, hother, hwf⟩ := Memory.memWrite_of_lt hk b
    obtain ⟨m₂, hs, hl₂, hwf₂, hin, hout⟩ := ih (k := k + 1) (m := m₁) (by omega)
    rw [hl] at hin hout
    refine ⟨m₂, by simp only [storeBytes, hw, hs], hl₂.trans hl, hwf₂ ∘ hwf, fun j hj => ?_, fun i hi => ?_⟩
    · cases j with
      | zero =>
        rw [hout _ (fun j hj heq => ?_)]
        · exact hself
        · have := place_inj (by omega) (by omega) heq
          omega
      | succ j =>
        have := hin j (by simpa using hj)
        rw [show k + 1 + j = k + (j + 1) by omega] at this
        simpa using this
    · rw [hout i (fun j hj => ?_), hother i (by simpa using hi 0 (by simp))]
      have := hi (j + 1) (by simpa using hj)
      rwa [show k + (j + 1) = k + 1 + j by omega] at this

/-! ## The next state of each kind of command -/

theorem sizeCommand_eq (size : Word → Nat) (s : State) :
    sizeCommand size s = .next { s with count := size s.val, status := 0x00 } := rfl

/-- A capacity-failed encode under `NONE` (60_exceptions.md R172). -/
theorem encodeCommand_of_lt {d : Direction} {size : Word → Nat} {enc : Word → List Byte} {s : State}
    (h : s.buf.len < size s.val) :
    encodeCommand .none d size enc s = .next { s with count := size s.val, status := 0x02 } := by
  simp only [encodeCommand, h, if_true]; rfl

/-- An encode that fits: the bytes lie at their places and nothing else of the view changes. -/
theorem encodeCommand_of_le (p : FailWrite) {d : Direction} {size : Word → Nat} {enc : Word → List Byte} {s : State}
    (hlen : (enc s.val).length = size s.val) (h : size s.val ≤ s.buf.len) :
    ∃ m, encodeCommand p d size enc s = .next { s with buf := m, count := size s.val, status := 0x00 } ∧
      m.len = s.buf.len ∧ (s.buf.wf = true → m.wf = true) ∧
      (∀ j (hj : j < (enc s.val).length), m.memRead (place d s.buf.len j) = some (enc s.val)[j]) ∧
      (∀ i, (∀ j < (enc s.val).length, i ≠ place d s.buf.len j) → m.memRead i = s.buf.memRead i) := by
  obtain ⟨m, hs, hl, hwf, hin, hout⟩ := storeBytes_spec d (bs := enc s.val) (k := 0) (m := s.buf) (by omega)
  refine ⟨m, ?_, hl, hwf, by simpa using hin, by simpa using hout⟩
  simp only [encodeCommand, if_neg (show ¬ s.buf.len < size s.val by omega), hs]
  rfl

/-- A forward decode, as a function of the view's bytes. -/
theorem decodeForward_eq (upd : Word → Byte → Word) (s : State) :
    decodeForward upd s =
      .next { s with
        val := (consume upd (s.buf.inOrder .forward) s.val).acc
        count := (consume upd (s.buf.inOrder .forward) s.val).consumed
        status := if (consume upd (s.buf.inOrder .forward) s.val).terminal then 0x01 else 0x00 } := by
  unfold decodeForward
  rw [scan_readingOrder]
  dsimp only
  split <;> rfl

/-- A reversed decode, as a function of the view's bytes. -/
theorem decodeReversed_eq (p : RevAccInit) (upd : Word → Byte → Word) (s : State) :
    decodeReversed p upd s =
      .next { s with
        val := (consume upd (s.buf.inOrder .reversed) (reversedStart p s.val)).acc
        count := (consume upd (s.buf.inOrder .reversed) (reversedStart p s.val)).consumed
        status := if (consume upd (s.buf.inOrder .reversed) (reversedStart p s.val)).terminal then 0x01 else 0x02 } := by
  unfold decodeReversed
  rw [scan_readingOrder]
  dsimp only
  split
  · rfl
  · next h =>
    rcases terminal_cases (s.buf.inOrder .reversed) with hc | ⟨init, t, rest, hb, hi, ht⟩
    · rw [consume_all hc, Memory.length_inOrder]; rfl
    · rw [hb, consume_terminal hi ht] at h
      exact absurd rfl h

end Sys2Proof.Machine
end

