-- ==== Sys2Proof/Laws/Codec.lean ====
section
/-! SUPPORT. The codec functions: sizes and lengths, the accumulator steps as arithmetic, and that accumulating an
encoding's bytes from 0 gives the value back, in both variants. -/

namespace Sys2Proof.Machine

/-! ## One byte -/

theorem contFlag_slice (w : Word) (i : Nat) : contFlag (slice w i) = false := by
  simp [contFlag, slice]

@[simp] theorem contFlag_withCont_slice (more : Bool) (w : Word) (i : Nat) :
    contFlag (withCont more (slice w i)) = more := by
  have h := contFlag_slice w i
  cases more <;> simp_all [contFlag, withCont]

@[simp] theorem payload_withCont_slice (more : Bool) (w : Word) (i : Nat) :
    payload (withCont more (slice w i)) = slice w i := by
  have h : ∀ g : Byte, contFlag g = false → payload (withCont more g) = g := by
    cases more <;> decide
  exact h _ (contFlag_slice w i)

theorem slice_toNat (w : Word) (i : Nat) : (slice w i).toNat = w.toNat / 2 ^ (7 * i) % 128 := by
  have h : w.toNat >>> (7 * i) &&& 127 = w.toNat / 2 ^ (7 * i) % 128 := by
    rw [Nat.shiftRight_eq_div_pow]; exact Nat.and_two_pow_sub_one_eq_mod _ 7
  simp only [slice, lowByte, BitVec.toNat_setWidth, BitVec.toNat_and, BitVec.toNat_ushiftRight]
  rw [show (0x7F : Word).toNat = 127 from rfl, h]
  omega

theorem payload_toNat_lt (b : Byte) : (payload b).toNat < 128 := by
  have : (payload b).toNat = b.toNat % 128 := by
    simpa [payload] using Nat.and_two_pow_sub_one_eq_mod b.toNat 7
  omega

/-! ## The accumulator steps as arithmetic -/

/-- `upd_S` multiplies by 128 and adds the group, modulo 2^64 (40_standard_codec.md R82). -/
theorem updS_toNat (a : Word) (b : Byte) : (updS a b).toNat = (a.toNat * 128 + (payload b).toNat) % 2 ^ 64 := by
  have hp := payload_toNat_lt b
  have hor : (a.toNat * 128 % 2 ^ 64) ||| (payload b).toNat = a.toNat * 128 % 2 ^ 64 + (payload b).toNat := by
    rw [show a.toNat * 128 % 2 ^ 64 = 2 ^ 7 * (a.toNat % 2 ^ 57) by omega,
      ← Nat.two_pow_add_eq_or_of_lt (i := 7) hp]
  have h1 : (updS a b).toNat = (a.toNat * 128 % 2 ^ 64) ||| (payload b).toNat := by
    simp only [updS, zext64, BitVec.toNat_or, BitVec.toNat_shiftLeft, BitVec.toNat_setWidth, Nat.shiftLeft_eq]
    rw [Nat.mod_eq_of_lt (show (payload b).toNat < 2 ^ 64 by omega)]
  rw [h1, hor]
  omega

/-- `upd_O` divides by 128 and adds the group at bit 57 (42_overflow_safe_codec.md R123). -/
theorem updO_toNat (a : Word) (b : Byte) : (updO a b).toNat = a.toNat / 128 + (payload b).toNat * 2 ^ 57 := by
  have hp := payload_toNat_lt b
  have ha := a.isLt
  have h1 : (updO a b).toNat = (a.toNat / 128) ||| (2 ^ 57 * (payload b).toNat) := by
    simp only [updO, zext64, BitVec.toNat_or, BitVec.toNat_shiftLeft, BitVec.toNat_setWidth, Nat.shiftLeft_eq,
      BitVec.toNat_ushiftRight, Nat.shiftRight_eq_div_pow]
    rw [Nat.mod_eq_of_lt (show (payload b).toNat < 2 ^ 64 by omega),
      Nat.mod_eq_of_lt (show (payload b).toNat * 2 ^ 57 < 2 ^ 64 by omega), Nat.mul_comm]
  rw [h1, Nat.or_comm, ← Nat.two_pow_add_eq_or_of_lt (i := 57) (show a.toNat / 128 < 2 ^ 57 by omega)]
  omega

/-- The groups of a byte sequence, the first the most significant (40_standard_codec.md R85). -/
def groupsBigEndian : List Byte → Nat
  | [] => 0
  | b :: bs => (payload b).toNat * 128 ^ bs.length + groupsBigEndian bs

/-- The groups of a byte sequence, the first the least significant (42_overflow_safe_codec.md R125). -/
def groupsLittleEndian : List Byte → Nat
  | [] => 0
  | b :: bs => (payload b).toNat + 128 * groupsLittleEndian bs

/-- The accumulator after some bytes of the standard variant (40_standard_codec.md R85). -/
theorem foldl_updS_toNat (bs : List Byte) (a : Word) :
    (bs.foldl updS a).toNat = (a.toNat * 128 ^ bs.length + groupsBigEndian bs) % 2 ^ 64 := by
  induction bs generalizing a with
  | nil => simp [groupsBigEndian, Nat.mod_eq_of_lt a.isLt]
  | cons b bs ih =>
    rw [List.foldl_cons, ih, updS_toNat, Nat.add_mod, Nat.mul_mod, Nat.mod_mod, ← Nat.mul_mod, ← Nat.add_mod]
    congr 1
    rw [List.length_cons, groupsBigEndian]
    ring

/-- The accumulator after some bytes of the overflow-safe variant (42_overflow_safe_codec.md R128). -/
theorem foldl_updO_toNat (bs : List Byte) (a : Word) :
    (bs.foldl updO a).toNat = (a.toNat + 2 ^ 64 * groupsLittleEndian bs) / 128 ^ bs.length := by
  induction bs generalizing a with
  | nil => simp [groupsLittleEndian]
  | cons b bs ih =>
    rw [List.foldl_cons, ih, updO_toNat, List.length_cons, groupsLittleEndian, Nat.pow_succ (n := 128),
      Nat.mul_comm (128 ^ _), ← Nat.div_div_eq_div_mul]
    congr 1
    omega

/-! ## The standard encoding -/

theorem groupsRight_bounds {fuel : Nat} {t : Word} (h : t.toNat < 2 ^ (7 * fuel)) :
    groupsRight fuel t ≤ fuel ∧ t.toNat < 2 ^ (7 * groupsRight fuel t) ∧
      (groupsRight fuel t ≠ 0 → 2 ^ (7 * (groupsRight fuel t - 1)) ≤ t.toNat) := by
  induction fuel generalizing t with
  | zero => simpa [groupsRight] using h
  | succ k ih =>
    rw [groupsRight]
    split
    · next h0 => simp [h0]
    · next h0 =>
      have hd : (t >>> 7).toNat = t.toNat / 2 ^ 7 := by simp [Nat.shiftRight_eq_div_pow]
      have hlt : (t >>> 7).toNat < 2 ^ (7 * k) := by
        rw [hd, Nat.div_lt_iff_lt_mul (by decide), ← Nat.pow_add]; exact h
      obtain ⟨h1, h2, h3⟩ := ih hlt
      refine ⟨by omega, ?_, fun _ => ?_⟩
      · rw [hd, Nat.div_lt_iff_lt_mul (by decide), ← Nat.pow_add] at h2
        exact h2
      · rw [Nat.add_sub_cancel]
        by_cases hz : groupsRight k (t >>> 7) = 0
        · have : t.toNat ≠ 0 := fun h => h0 (BitVec.eq_of_toNat_eq h)
          rw [hz]; simpa [Nat.one_le_iff_ne_zero] using this
        · have := h3 hz
          rw [hd, Nat.le_div_iff_mul_le (by decide), ← Nat.pow_add] at this
          exact (Nat.pow_le_pow_right (by decide) (by omega)).trans this

/-- What `size_S` is, once (40_standard_codec.md R80): between 1 and 10 groups, enough for the value, and no fewer would do. -/
theorem sizeS_spec (v : Word) : 1 ≤ sizeS v ∧ sizeS v ≤ 10 ∧ v.toNat < 2 ^ (7 * sizeS v) ∧
    (sizeS v = 1 ∨ 2 ^ (7 * (sizeS v - 1)) ≤ v.toNat) := by
  unfold sizeS
  have hv := v.isLt
  split
  · next h =>
    have : v.toNat ≤ 127 := by simpa [BitVec.le_def] using h
    exact ⟨Nat.le_refl _, by omega, by omega, .inl rfl⟩
  · next h =>
    have h128 : 128 ≤ v.toNat := by
      have : ¬ v.toNat ≤ 127 := by simpa [BitVec.le_def] using h
      omega
    obtain ⟨h1, h2, h3⟩ := groupsRight_bounds (fuel := Config.maxEnc) (t := v) (by simp only [Config.maxEnc]; omega)
    have hne : groupsRight Config.maxEnc v ≠ 0 := fun h0 => by rw [h0] at h2; omega
    exact ⟨by omega, h1, h2, .inr (h3 hne)⟩

@[simp] theorem length_groupsDown (v : Word) (n : Nat) : (groupsDown v n).length = n := by
  induction n with
  | zero => rfl
  | succ n ih => simp [groupsDown, ih]

@[simp] theorem length_encBytesS (v : Word) : (encBytesS v).length = sizeS v := length_groupsDown v _

theorem getElem_groupsDown {v : Word} {n k : Nat} (h : k < (groupsDown v n).length) :
    (groupsDown v n)[k] = withCont (n - 1 - k != 0) (slice v (n - 1 - k)) := by
  induction n generalizing k with
  | zero => simp [groupsDown] at h
  | succ n ih =>
    cases k with
    | zero => simp [groupsDown]
    | succ k =>
      simp only [groupsDown, List.getElem_cons_succ]
      rw [ih, show n + 1 - 1 - (k + 1) = n - 1 - k by omega]

theorem groupsBigEndian_groupsDown (v : Word) (n : Nat) : groupsBigEndian (groupsDown v n) = v.toNat % 128 ^ n := by
  induction n with
  | zero => simp [groupsDown, groupsBigEndian, Nat.mod_one]
  | succ n ih =>
    rw [groupsDown, groupsBigEndian, ih, payload_withCont_slice, slice_toNat, length_groupsDown, Nat.pow_mul,
      Nat.pow_succ (n := 128), Nat.mod_mul, Nat.mul_comm, Nat.add_comm]

/-- Accumulating the standard encoding from 0 gives the value back (40_standard_codec.md R86). -/
theorem foldl_updS_encBytesS (v : Word) : (encBytesS v).foldl updS 0 = v := by
  have h := (sizeS_spec v).2.2.1
  rw [Nat.pow_mul] at h
  apply BitVec.eq_of_toNat_eq
  rw [foldl_updS_toNat, encBytesS, groupsBigEndian_groupsDown, Nat.mod_eq_of_lt (b := 128 ^ _) h]
  have := v.isLt
  simpa using this

/-! ## The overflow-safe encoding -/

theorem groupsLeft_bounds {fuel : Nat} {t : Word} (h : 2 ^ 64 ∣ t.toNat * 2 ^ (7 * fuel)) :
    groupsLeft fuel t ≤ fuel ∧ 2 ^ 64 ∣ t.toNat * 2 ^ (7 * groupsLeft fuel t) ∧
      (groupsLeft fuel t ≠ 0 → ¬ 2 ^ 64 ∣ t.toNat * 2 ^ (7 * (groupsLeft fuel t - 1))) := by
  induction fuel generalizing t with
  | zero => simpa [groupsLeft] using h
  | succ k ih =>
    rw [groupsLeft]
    split
    · next h0 => simp [h0]
    · next h0 =>
      have hd : ∀ j, 2 ^ 64 ∣ (t <<< 7).toNat * 2 ^ j ↔ 2 ^ 64 ∣ t.toNat * 2 ^ (7 + j) := by
        intro j
        rw [BitVec.toNat_shiftLeft, Nat.shiftLeft_eq, Nat.pow_add, ← Nat.mul_assoc]
        rw [Nat.dvd_iff_mod_eq_zero, Nat.dvd_iff_mod_eq_zero, Nat.mul_mod, Nat.mod_mod, ← Nat.mul_mod]
      obtain ⟨h1, h2, h3⟩ := ih ((hd _).2 (by rwa [show 7 + 7 * k = 7 * (k + 1) by omega]))
      rw [hd] at h2
      refine ⟨by omega, by rwa [show 7 * (groupsLeft k (t <<< 7) + 1) = 7 + 7 * groupsLeft k (t <<< 7) by omega],
        fun _ => ?_⟩
      rw [Nat.add_sub_cancel]
      by_cases hz : groupsLeft k (t <<< 7) = 0
      · rw [hz]
        intro hdvd
        have h0' : t.toNat ≠ 0 := fun h => h0 (BitVec.eq_of_toNat_eq h)
        have := Nat.le_of_dvd (Nat.pos_of_ne_zero h0') (by simpa using hdvd)
        have := t.isLt
        omega
      · have := h3 hz
        rw [hd] at this
        rwa [show 7 * groupsLeft k (t <<< 7) = 7 + 7 * (groupsLeft k (t <<< 7) - 1) by omega]

/-- What `size_O` is, once (42_overflow_safe_codec.md R121): between 1 and 10 left shifts by 7 empty the register, and
no fewer would. -/
theorem sizeO_spec (v : Word) : 1 ≤ sizeO v ∧ sizeO v ≤ 10 ∧ 2 ^ 64 ∣ v.toNat * 2 ^ (7 * sizeO v) ∧
    (sizeO v = 1 ∨ ¬ 2 ^ 64 ∣ v.toNat * 2 ^ (7 * (sizeO v - 1))) := by
  have hd : ∀ j, 2 ^ 64 ∣ (v <<< 7).toNat * 2 ^ j ↔ 2 ^ 64 ∣ v.toNat * 2 ^ (7 + j) := by
    intro j
    rw [BitVec.toNat_shiftLeft, Nat.shiftLeft_eq, Nat.pow_add, ← Nat.mul_assoc]
    rw [Nat.dvd_iff_mod_eq_zero, Nat.dvd_iff_mod_eq_zero, Nat.mul_mod, Nat.mod_mod, ← Nat.mul_mod]
  have h9 : 2 ^ 64 ∣ (v <<< 7).toNat * 2 ^ (7 * 9) := by
    rw [hd]; exact Dvd.dvd.mul_left (Nat.pow_dvd_pow 2 (by decide)) _
  obtain ⟨h1, h2, h3⟩ := groupsLeft_bounds (fuel := Config.maxEnc) (t := v <<< 7) (by
    rw [hd]; exact Dvd.dvd.mul_left (Nat.pow_dvd_pow 2 (by simp only [Config.maxEnc]; decide)) _)
  unfold sizeO
  generalize hg : groupsLeft Config.maxEnc (v <<< 7) = g at *
  rw [hd] at h2
  refine ⟨by omega, ?_, by rwa [show 7 * (1 + g) = 7 + 7 * g by omega], ?_⟩
  · by_contra hgt
    have hg0 : g ≠ 0 := by omega
    refine h3 hg0 (h9.trans (Nat.mul_dvd_mul_left _ (Nat.pow_dvd_pow 2 (by omega))))
  · by_cases hg0 : g = 0
    · exact .inl (by omega)
    · have := h3 hg0
      rw [hd] at this
      exact .inr (by rwa [show 7 * (1 + g - 1) = 7 + 7 * (g - 1) by omega])

/-- Ten bytes exactly when bit 0 is set, the case of the extra byte (42_overflow_safe_codec.md R124). -/
theorem sizeO_le_nine_iff (v : Word) : sizeO v ≤ 9 ↔ v.toNat % 2 = 0 := by
  obtain ⟨h1, h2, h3, h4⟩ := sizeO_spec v
  constructor
  · intro h
    have : 2 ^ 64 ∣ v.toNat * 2 ^ 63 := h3.trans (Nat.mul_dvd_mul_left _ (Nat.pow_dvd_pow 2 (by omega)))
    omega
  · intro h
    by_contra hgt
    have h10 : sizeO v = 10 := by omega
    rcases h4 with h4 | h4
    · omega
    · rw [h10] at h4
      exact h4 (by omega)

theorem extraMask_ne_zero_iff (v : Word) : v &&& Config.extraMask ≠ 0 ↔ v.toNat % 2 = 1 := by
  have h : (v &&& Config.extraMask).toNat = v.toNat % 2 := by
    simp [Config.extraMask, Nat.and_one_is_mod]
  constructor
  · intro hne
    have : (v &&& Config.extraMask).toNat ≠ 0 := fun h0 => hne (BitVec.eq_of_toNat_eq h0)
    omega
  · intro h1 h0
    rw [h0, h1] at h
    exact absurd h (by decide)

@[simp] theorem length_groupsUp (w : Word) (m : Nat) : (groupsUp w m).length = m := by simp [groupsUp]

theorem getElem_groupsUp {w : Word} {m j : Nat} (h : j < (groupsUp w m).length) :
    (groupsUp w m)[j] = withCont (j != m - 1) (slice w j) := by
  simp [groupsUp]

@[simp] theorem length_encBytesO (v : Word) : (encBytesO v).length = sizeO v := by
  unfold encBytesO
  have h9 := sizeO_le_nine_iff v
  have h10 := (sizeO_spec v).2.1
  split
  · next h =>
    have := (extraMask_ne_zero_iff v).1 h
    simp only [List.length_cons, length_groupsUp]
    omega
  · simp

/-- With bit 0 set the extra byte is 0xC0 (42_overflow_safe_codec.md R120). -/
theorem extraByte_of_odd {v : Word} (h : v.toNat % 2 = 1) : extraByte v = 0xC0 := by
  have : v &&& Config.extraMask = 1 := by
    apply BitVec.eq_of_toNat_eq
    simpa [Config.extraMask, Nat.and_one_is_mod] using h
  rw [extraByte, this]
  rfl

theorem groupsLittleEndian_append (bs : List Byte) (b : Byte) :
    groupsLittleEndian (bs ++ [b]) = groupsLittleEndian bs + 128 ^ bs.length * (payload b).toNat := by
  induction bs with
  | nil => simp [groupsLittleEndian]
  | cons c bs ih => rw [List.cons_append, groupsLittleEndian, ih, groupsLittleEndian, List.length_cons]; ring

theorem groupsLittleEndian_map (w : Word) (more : Nat → Bool) (m : Nat) :
    groupsLittleEndian ((List.range m).map (fun j => withCont (more j) (slice w j))) = w.toNat % 128 ^ m := by
  induction m with
  | zero => simp [groupsLittleEndian, Nat.mod_one]
  | succ m ih =>
    rw [List.range_succ, List.map_append, List.map_singleton, groupsLittleEndian_append, ih, payload_withCont_slice,
      slice_toNat, List.length_map, List.length_range, Nat.pow_mul, Nat.pow_succ (n := 128), Nat.mod_mul]

theorem groupsLittleEndian_groupsUp (w : Word) (m : Nat) : groupsLittleEndian (groupsUp w m) = w.toNat % 128 ^ m :=
  groupsLittleEndian_map w _ m

/-- Accumulating the overflow-safe encoding from 0 gives the value back (42_overflow_safe_codec.md R131). -/
theorem foldl_updO_encBytesO (v : Word) : (encBytesO v).foldl updO 0 = v := by
  have hv := v.isLt
  obtain ⟨h1, -, h3, -⟩ := sizeO_spec v
  apply BitVec.eq_of_toNat_eq
  rw [foldl_updO_toNat, length_encBytesO]
  unfold encBytesO
  split
  · next h =>
    have hodd := (extraMask_ne_zero_iff v).1 h
    have h10 : sizeO v = 10 := by have := sizeO_le_nine_iff v; have := (sizeO_spec v).2.1; omega
    have hw : (v >>> Config.extraBits).toNat = v.toNat / 2 := by simp [Nat.shiftRight_eq_div_pow]
    rw [extraByte_of_odd hodd, groupsLittleEndian, groupsLittleEndian_groupsUp, hw, h10,
      show (payload 0xC0).toNat = 64 from rfl, Nat.mod_eq_of_lt (show v.toNat / 2 < 128 ^ 9 by omega)]
    rw [show (0 : Word).toNat = 0 from rfl]
    omega
  · next h =>
    have heven : v.toNat % 2 = 0 := by have := (extraMask_ne_zero_iff v).not.1 h; omega
    have h9 := (sizeO_le_nine_iff v).2 heven
    have hw : (v >>> (64 - 7 * sizeO v)).toNat = v.toNat / 2 ^ (64 - 7 * sizeO v) := by
      simp [Nat.shiftRight_eq_div_pow]
    have hpow : 2 ^ (64 - 7 * sizeO v) * 128 ^ sizeO v = 2 ^ 64 := by
      rw [show (128 : Nat) = 2 ^ 7 from rfl, ← Nat.pow_mul, ← Nat.pow_add]; congr 1; omega
    rw [Nat.pow_mul, ← hpow] at h3
    obtain ⟨q, hq⟩ : 2 ^ (64 - 7 * sizeO v) ∣ v.toNat := Nat.dvd_of_mul_dvd_mul_right (Nat.pow_pos (by decide)) h3
    have hqlt : q < 128 ^ sizeO v := by
      have : 2 ^ (64 - 7 * sizeO v) * q < 2 ^ (64 - 7 * sizeO v) * 128 ^ sizeO v := by rw [hpow, ← hq]; exact hv
      exact Nat.lt_of_mul_lt_mul_left this
    rw [groupsLittleEndian_groupsUp, hw, hq, Nat.mul_div_cancel_left _ (Nat.pow_pos (by decide)),
      Nat.mod_eq_of_lt hqlt, ← hpow]
    rw [show (0 : Word).toNat = 0 from rfl, Nat.zero_add, Nat.mul_right_comm, Nat.mul_div_cancel _ (Nat.pow_pos (by decide))]

/-! ## Both encodings are self-delimited (30_encoding.md R62) -/

theorem selfDelimited_of_getElem {bs : List Byte} (hpos : 0 < bs.length)
    (h : ∀ k (hk : k < bs.length), contFlag bs[k] = decide (k + 1 < bs.length)) : selfDelimited bs := by
  have hne : bs ≠ [] := fun h0 => by simp [h0] at hpos
  refine ⟨bs.dropLast, bs.getLast hne, (List.dropLast_append_getLast hne).symm, fun b hb => ?_, ?_⟩
  · obtain ⟨k, hk, rfl⟩ := List.getElem_of_mem hb
    rw [List.length_dropLast] at hk
    rw [List.getElem_dropLast, h k (by omega)]
    simp only [decide_eq_true_eq]
    omega
  · rw [List.getLast_eq_getElem, h _ (by omega)]
    simp only [decide_eq_false_iff_not]
    omega

theorem selfDelimited_encBytesS (v : Word) : selfDelimited (encBytesS v) := by
  have h1 := (sizeS_spec v).1
  refine selfDelimited_of_getElem (by rw [length_encBytesS]; exact h1) (fun k hk => ?_)
  have hk' : k < sizeS v := by simpa using hk
  simp only [encBytesS, getElem_groupsDown, contFlag_withCont_slice, length_groupsDown]
  by_cases h : k + 1 < sizeS v
  · simp only [h, decide_true, bne_iff_ne]; omega
  · simp only [h, decide_false, bne_eq_false_iff_eq]; omega

theorem contFlag_getElem_groupsUp {w : Word} {m j : Nat} (h : j < (groupsUp w m).length) :
    contFlag (groupsUp w m)[j] = decide (j + 1 < m) := by
  rw [getElem_groupsUp, contFlag_withCont_slice]
  rw [length_groupsUp] at h
  by_cases h' : j + 1 < m
  · simp only [h', decide_true, bne_iff_ne]; omega
  · simp only [h', decide_false, bne_eq_false_iff_eq]; omega

theorem selfDelimited_encBytesO (v : Word) : selfDelimited (encBytesO v) := by
  have h1 := (sizeO_spec v).1
  refine selfDelimited_of_getElem (by rw [length_encBytesO]; exact h1) (fun k hk => ?_)
  rw [length_encBytesO] at hk ⊢
  by_cases h : v &&& Config.extraMask ≠ 0
  · have hodd := (extraMask_ne_zero_iff v).1 h
    have h10 : sizeO v = 10 := by have := sizeO_le_nine_iff v; have := (sizeO_spec v).2.1; omega
    simp only [encBytesO, if_pos h, h10]
    cases k with
    | zero => rw [List.getElem_cons_zero, extraByte_of_odd hodd]; rfl
    | succ j =>
      rw [List.getElem_cons_succ, contFlag_getElem_groupsUp]
      simp only [decide_eq_decide]
      omega
  · simp only [encBytesO, if_neg h]
    exact contFlag_getElem_groupsUp _

/-- A scan over a self-delimited sequence, whatever follows it, consumes exactly it. -/
theorem consume_selfDelimited {upd : Word → Byte → Word} {bs : List Byte} (h : selfDelimited bs) (rest : List Byte)
    (a : Word) :
    consume upd (bs ++ rest) a = { acc := bs.foldl upd a, consumed := bs.length, terminal := true } := by
  obtain ⟨init, last, rfl, hi, hl⟩ := h
  rw [List.append_assoc, List.singleton_append, consume_terminal hi hl]
  simp

end Sys2Proof.Machine
end

