-- ==== Sys2Proof/Laws/Accumulate.lean ====
section
/-! SUPPORT. A scan of a view by where its first terminal byte is, and the accumulator in the closed forms of
40_standard_codec.md R85 and 42_overflow_safe_codec.md R128. -/

namespace Sys2Proof.Machine

/-! ## Scans by the place of the first terminal byte -/

theorem Memory.getElem_inOrder (m : Memory) (d : Direction) {k : Nat} (h : k < (m.inOrder d).length) :
    (m.inOrder d)[k] = m.nth d k := by
  simp [Memory.inOrder, readingOrder, Memory.nth]

theorem Memory.take_inOrder (m : Memory) (d : Direction) {n : Nat} (h : n ≤ m.len) :
    (m.inOrder d).take n = (List.range n).map (m.nth d) := by
  apply List.ext_getElem
  · simp; omega
  · intro i _ _
    rw [List.getElem_take, Memory.getElem_inOrder]
    simp

theorem Memory.inOrder_eq (m : Memory) (d : Direction) : m.inOrder d = (List.range m.len).map (m.nth d) := by
  rw [← m.take_inOrder d le_rfl, List.take_of_length_le (by simp)]

/-- A view whose first terminal byte is the t-th: `t + 1` bytes are consumed. -/
theorem consume_firstTerminal {upd : Word → Byte → Word} {m : Memory} {d : Direction} {t : Nat} (h : m.FirstTerminal d t)
    (a : Word) : consume upd (m.inOrder d) a =
      { acc := ((List.range (t + 1)).map (m.nth d)).foldl upd a, consumed := t + 1, terminal := true } := by
  obtain ⟨h1, h2, h3⟩ := h
  have hlt : t < (m.inOrder d).length := by simpa using h1
  have hsplit : m.inOrder d = (List.range t).map (m.nth d) ++ m.nth d t :: (m.inOrder d).drop (t + 1) := by
    rw [← m.take_inOrder d (Nat.le_of_lt h1), ← m.getElem_inOrder d hlt, List.getElem_cons_drop, List.take_append_drop]
  have hcont : ∀ b ∈ (List.range t).map (m.nth d), contFlag b = true := fun b hb => by
    obtain ⟨k, hk, rfl⟩ := List.mem_map.1 hb
    exact h2 k (List.mem_range.1 hk)
  rw [hsplit, consume_terminal hcont h3, List.range_succ, List.map_append]
  simp

/-- A view with no terminal byte: every byte is consumed. -/
theorem consume_noTerminal {upd : Word → Byte → Word} {m : Memory} {d : Direction} (h : m.NoTerminal d) (a : Word) :
    consume upd (m.inOrder d) a =
      { acc := ((List.range m.len).map (m.nth d)).foldl upd a, consumed := m.len, terminal := false } := by
  rw [consume_all, m.inOrder_eq d]
  · simp
  · rw [m.inOrder_eq d]
    intro b hb
    obtain ⟨k, hk, rfl⟩ := List.mem_map.1 hb
    exact h k (List.mem_range.1 hk)

/-- Leading 0x80 bytes over an accumulator of 0 only add to the count (30_encoding.md R68). -/
theorem consume_extension {upd : Word → Byte → Word} (h0 : upd 0 0x80 = 0) (p : Nat) (bs : List Byte) :
    consume upd (List.replicate p 0x80 ++ bs) 0 =
      { consume upd bs 0 with consumed := (consume upd bs 0).consumed + p } := by
  induction p with
  | zero => rfl
  | succ p ih =>
    rw [List.replicate_succ, List.cons_append, consume, if_pos (by rfl), h0, ih]
    simp only [Scan.mk.injEq, true_and, and_true]
    omega

/-! ## The standard accumulator -/

theorem payload_toNat (b : Byte) : (payload b).toNat = b.toNat % 128 := by
  simpa [payload] using Nat.and_two_pow_sub_one_eq_mod b.toNat 7

theorem groupsBigEndian_append (bs : List Byte) (b : Byte) :
    groupsBigEndian (bs ++ [b]) = groupsBigEndian bs * 128 + (payload b).toNat := by
  induction bs with
  | nil => simp [groupsBigEndian]
  | cons c bs ih =>
    simp only [List.cons_append, groupsBigEndian, ih, List.length_append, List.length_singleton]
    ring

theorem groupsBigEndian_nth (m : Memory) (d : Direction) (n : Nat) :
    groupsBigEndian ((List.range n).map (m.nth d)) =
      ∑ k ∈ Finset.range n, m.nthGroup d k * 2 ^ (7 * (n - 1 - k)) := by
  induction n with
  | zero => rfl
  | succ n ih =>
    rw [List.range_succ, List.map_append, List.map_singleton, groupsBigEndian_append, ih, Finset.sum_range_succ,
      payload_toNat, Finset.sum_mul]
    congr 1
    · refine Finset.sum_congr rfl (fun k hk => ?_)
      have := Finset.mem_range.1 hk
      rw [show 7 * (n + 1 - 1 - k) = 7 * (n - 1 - k) + 7 by omega, Nat.pow_add]
      ring
    · simp [Memory.nthGroup]

/-- Accumulating the first `n` bytes in reading order is R85's closed form. -/
theorem foldl_updS_nth (m : Memory) (d : Direction) (n : Nat) (a : Word) :
    ((List.range n).map (m.nth d)).foldl updS a = accumulatedS m d n a := by
  apply BitVec.eq_of_toNat_eq
  rw [foldl_updS_toNat, accumulatedS, groupsBigEndian_nth, BitVec.toNat_ofNat, Nat.pow_mul]
  simp

/-! ## The overflow-safe accumulator -/

theorem updO_eq (a : Word) (b : Byte) : updO a b = (a >>> 7) ||| (BitVec.ofNat 64 (b.toNat % 128) <<< 57) := by
  rw [updO]
  congr 2
  apply BitVec.eq_of_toNat_eq
  simp only [zext64, BitVec.toNat_setWidth, payload_toNat, BitVec.toNat_ofNat]

/-- One more byte consumed moves every placed group seven bits down. -/
theorem placedO_ushiftRight {n j g : Nat} (hj : j < n) (hg : g < 128) : placedO n j g >>> 7 = placedO (n + 1) j g := by
  unfold placedO
  rw [show 7 * (n + 1 - 1 - j) = 7 * (n - 1 - j) + 7 by omega]
  generalize 7 * (n - 1 - j) = x
  have hg64 : g % 2 ^ 64 = g := Nat.mod_eq_of_lt (by omega)
  have hfit : ∀ y ≤ 57, g * 2 ^ y < 2 ^ 64 := fun y hy => by
    have h1 : 2 ^ y ≤ 2 ^ 57 := Nat.pow_le_pow_right (by decide) hy
    have h2 : g * 2 ^ y ≤ 127 * 2 ^ 57 := Nat.mul_le_mul (by omega) h1
    omega
  by_cases h57 : x ≤ 57
  · rw [if_pos h57]
    apply BitVec.eq_of_toNat_eq
    by_cases h50 : x + 7 ≤ 57
    · rw [if_pos h50]
      simp only [BitVec.toNat_ushiftRight, BitVec.toNat_shiftLeft, BitVec.toNat_ofNat, Nat.shiftLeft_eq,
        Nat.shiftRight_eq_div_pow]
      rw [hg64, Nat.mod_eq_of_lt (hfit _ (by omega)), Nat.mod_eq_of_lt (hfit _ (by omega)),
        show 57 - x = 57 - (x + 7) + 7 by omega, Nat.pow_add, ← Nat.mul_assoc, Nat.mul_div_cancel _ (by decide)]
    · rw [if_neg h50]
      simp only [BitVec.toNat_ushiftRight, BitVec.toNat_shiftLeft, BitVec.toNat_ofNat, Nat.shiftLeft_eq,
        Nat.shiftRight_eq_div_pow]
      rw [hg64, Nat.mod_eq_of_lt (hfit _ (by omega)),
        show (2 : Nat) ^ 7 = 2 ^ (57 - x) * 2 ^ (x + 7 - 57) by rw [← Nat.pow_add]; congr 1; omega,
        Nat.mul_comm g, Nat.mul_div_mul_left _ _ (Nat.pow_pos (by decide))]
  · rw [if_neg h57, if_neg (by omega), ← BitVec.shiftRight_add]
    congr 1
    omega

theorem foldl_placedO_ushiftRight {n : Nat} (g : Nat → Nat) (hg : ∀ j, g j < 128) {js : List Nat} (hjs : ∀ j ∈ js, j < n)
    (x : Word) : (js.foldl (fun acc j => acc ||| placedO n j (g j)) x) >>> 7 =
      js.foldl (fun acc j => acc ||| placedO (n + 1) j (g j)) (x >>> 7) := by
  induction js generalizing x with
  | nil => rfl
  | cons j js ih =>
    rw [List.foldl_cons, ih (fun k hk => hjs k (by simp [hk])), List.foldl_cons, BitVec.ushiftRight_or_distrib,
      placedO_ushiftRight (hjs j (by simp)) (hg j)]

/-- Accumulating the first `n` bytes in reading order is R128's closed form. -/
theorem foldl_updO_nth (m : Memory) (d : Direction) (n : Nat) (a : Word) :
    ((List.range n).map (m.nth d)).foldl updO a = accumulatedO m d n a := by
  induction n with
  | zero => simp [accumulatedO]
  | succ n ih =>
    have hlast : placedO (n + 1) n (m.nthGroup d n) = BitVec.ofNat 64 ((m.nth d n).toNat % 128) <<< 57 := by
      rw [placedO, if_pos (by omega), Memory.nthGroup, show 57 - 7 * (n + 1 - 1 - n) = 57 by omega]
    rw [List.range_succ, List.map_append, List.foldl_append, ih, List.map_singleton, List.foldl_cons, List.foldl_nil,
      updO_eq]
    unfold accumulatedO
    rw [List.range_succ, List.foldl_append, List.foldl_cons, List.foldl_nil, hlast,
      foldl_placedO_ushiftRight (m.nthGroup d) (fun j => Nat.mod_lt _ (by decide)) (fun j hj => List.mem_range.1 hj),
      ← BitVec.shiftRight_add, show 7 * n + 7 = 7 * (n + 1) by omega]

end Sys2Proof.Machine
end

