-- ==== Sys2Proof/Laws/Layout.lean ====
section
/-! SUPPORT. The bytes of the encodings, as the layouts of 30_encoding.md R63 and R64 say them. -/

namespace Sys2Proof.Machine

theorem encodedByte_eq_withCont (C : Bool) (g : BitVec 7) : encodedByte C g = withCont C (g.setWidth 8) := by
  revert g
  cases C <;> decide

/-- Group `i` of a value shifted right is the seven bits that far further up. -/
theorem slice_ushiftRight (w : Word) (a i : Nat) : slice (w >>> a) i = (w.extractLsb' (a + 7 * i) 7).setWidth 8 := by
  apply BitVec.eq_of_toNat_eq
  rw [slice_toNat]
  simp only [BitVec.toNat_ushiftRight, BitVec.toNat_setWidth, BitVec.extractLsb'_toNat, Nat.shiftRight_eq_div_pow,
    Nat.div_div_eq_div_mul, ← Nat.pow_add]
  omega

theorem slice_eq_extractLsb' (w : Word) (i : Nat) : slice w i = (w.extractLsb' (7 * i) 7).setWidth 8 := by
  have h := slice_ushiftRight w 0 i
  rwa [BitVec.ushiftRight_zero, Nat.zero_add] at h

/-- Byte `k` of the standard encoding. -/
theorem getElem_encBytesS {v : Word} {k : Nat} (hk : k < (encBytesS v).length) :
    (encBytesS v)[k] = layoutS v (sizeS v) k := by
  have hk' : k < sizeS v := by simpa using hk
  simp only [encBytesS]
  rw [getElem_groupsDown, layoutS, encodedByte_eq_withCont, slice_eq_extractLsb']
  congr 1
  by_cases h : k + 1 < sizeS v
  · simp only [h, decide_true, bne_iff_ne]; omega
  · simp only [h, decide_false, bne_eq_false_iff_eq]; omega

theorem getLsbD_zero_iff (v : Word) : v.getLsbD 0 = true ↔ v &&& Config.extraMask ≠ 0 := by
  rw [extraMask_ne_zero_iff]
  simp [BitVec.getLsbD, Nat.testBit_zero]

theorem flag_of_lt {m j : Nat} (h : j < m) : (j != m - 1) = decide (j + 1 < m) := by
  by_cases h' : j + 1 < m
  · simp only [h', decide_true, bne_iff_ne]; omega
  · simp only [h', decide_false, bne_eq_false_iff_eq]; omega

/-- Byte `k` of the overflow-safe encoding. -/
theorem getElem_encBytesO {v : Word} {k : Nat} (hk : k < (encBytesO v).length) :
    (encBytesO v)[k] = layoutO v (sizeO v) k := by
  have hk' : k < sizeO v := by simpa using hk
  unfold layoutO
  by_cases hm : v &&& Config.extraMask ≠ 0
  · have hodd := (extraMask_ne_zero_iff v).1 hm
    have h10 : sizeO v = 10 := by have := sizeO_le_nine_iff v; have := (sizeO_spec v).2.1; omega
    rw [if_pos ((getLsbD_zero_iff v).2 hm)]
    simp only [encBytesO, if_pos hm]
    cases k with
    | zero => simp [extraByte_of_odd hodd]
    | succ j =>
      rw [h10] at hk'
      rw [List.getElem_cons_succ, getElem_groupsUp, slice_ushiftRight, if_neg (by omega), encodedByte_eq_withCont, h10,
        flag_of_lt (by omega), show 7 * (j + 1) - 6 = Config.extraBits + 7 * j by simp only [Config.extraBits]; omega]
      congr 1
      simp only [decide_eq_decide]
      omega
  · rw [if_neg (fun h => hm ((getLsbD_zero_iff v).1 h))]
    simp only [encBytesO, if_neg hm]
    rw [getElem_groupsUp, slice_ushiftRight, encodedByte_eq_withCont, flag_of_lt hk']

end Sys2Proof.Machine
end

