-- ==== Sys2Proof/Laws/PerInstr.lean ====
section
/-! SUPPORT. Facts about each command as syntax, one lemma per constructor. -/

namespace Sys2Proof.Laws.EncodedWord

/-- The command is well-formed, its word is legal, and its word decodes to it (30_encoding.md R74, R79). -/
def Statement (i : Instr) : Prop :=
  i.wellFormed = true ∧ legalWord (encode i) = true ∧ decode (encode i) = .command i

theorem sizeS : Statement .sizeS := ⟨rfl, rfl, rfl⟩
theorem encS : Statement .encS := ⟨rfl, rfl, rfl⟩
theorem decS : Statement .decS := ⟨rfl, rfl, rfl⟩
theorem encrS : Statement .encrS := ⟨rfl, rfl, rfl⟩
theorem decrS : Statement .decrS := ⟨rfl, rfl, rfl⟩
theorem sizeO : Statement .sizeO := ⟨rfl, rfl, rfl⟩
theorem encO : Statement .encO := ⟨rfl, rfl, rfl⟩
theorem decO : Statement .decO := ⟨rfl, rfl, rfl⟩
theorem encrO : Statement .encrO := ⟨rfl, rfl, rfl⟩
theorem decrO : Statement .decrO := ⟨rfl, rfl, rfl⟩

end Sys2Proof.Laws.EncodedWord
end

