-- ==== Sys2Proof/Laws/Step.lean ====
section
/-! SUPPORT. The commands' next states by name, what a command can do at all, what a host access can do, and what
each of them does to the invariant. -/

namespace Sys2Proof.Machine

/-! ## Each command's next state -/

theorem exec_sizeS (s : State) : exec .sizeS s = .next { s with count := sizeS s.val, status := 0x00 } := rfl

theorem exec_sizeO (s : State) : exec .sizeO s = .next { s with count := sizeO s.val, status := 0x00 } := rfl

theorem exec_decS (s : State) : exec .decS s = .next { s with
    val := (consume updS (s.buf.inOrder .forward) s.val).acc
    count := (consume updS (s.buf.inOrder .forward) s.val).consumed
    status := if (consume updS (s.buf.inOrder .forward) s.val).terminal then 0x01 else 0x00 } :=
  decodeForward_eq updS s

theorem exec_decO (s : State) : exec .decO s = .next { s with
    val := (consume updO (s.buf.inOrder .forward) s.val).acc
    count := (consume updO (s.buf.inOrder .forward) s.val).consumed
    status := if (consume updO (s.buf.inOrder .forward) s.val).terminal then 0x01 else 0x00 } :=
  decodeForward_eq updO s

theorem exec_decrS (s : State) : exec .decrS s = .next { s with
    val := (consume updS (s.buf.inOrder .reversed) s.val).acc
    count := (consume updS (s.buf.inOrder .reversed) s.val).consumed
    status := if (consume updS (s.buf.inOrder .reversed) s.val).terminal then 0x01 else 0x02 } :=
  decodeReversed_eq .keep updS s

theorem exec_decrO (s : State) : exec .decrO s = .next { s with
    val := (consume updO (s.buf.inOrder .reversed) s.val).acc
    count := (consume updO (s.buf.inOrder .reversed) s.val).consumed
    status := if (consume updO (s.buf.inOrder .reversed) s.val).terminal then 0x01 else 0x02 } :=
  decodeReversed_eq .keep updO s

/-- What an encode command `i` of that size, bytes and direction does, in both cases. -/
structure Encodes (i : Instr) (d : Direction) (size : Word → Nat) (enc : Word → List Byte) : Prop where
  fails : ∀ {s : State}, s.buf.len < size s.val → exec i s = .next { s with count := size s.val, status := 0x02 }
  fits : ∀ {s : State}, size s.val ≤ s.buf.len →
    ∃ m, exec i s = .next { s with buf := m, count := size s.val, status := 0x00 } ∧
      m.len = s.buf.len ∧ (s.buf.wf = true → m.wf = true) ∧
      (∀ j (hj : j < (enc s.val).length), m.memRead (place d s.buf.len j) = some (enc s.val)[j]) ∧
      (∀ i, (∀ j < (enc s.val).length, i ≠ place d s.buf.len j) → m.memRead i = s.buf.memRead i)

theorem encodes_encS : Encodes .encS .forward sizeS encBytesS :=
  ⟨encodeCommand_of_lt, encodeCommand_of_le _ (length_encBytesS _)⟩

theorem encodes_encrS : Encodes .encrS .reversed sizeS encBytesS :=
  ⟨encodeCommand_of_lt, encodeCommand_of_le _ (length_encBytesS _)⟩

theorem encodes_encO : Encodes .encO .forward sizeO encBytesO :=
  ⟨encodeCommand_of_lt, encodeCommand_of_le _ (length_encBytesO _)⟩

theorem encodes_encrO : Encodes .encrO .reversed sizeO encBytesO :=
  ⟨encodeCommand_of_lt, encodeCommand_of_le _ (length_encBytesO _)⟩

/-! ## What a command can do -/

/-- The effect of one command on a state, said once for all ten: VAL, the view, COUNT and STATUS may change, and
nothing else; LEN stays, the view stays canonical, and COUNT is at most LEN or at most 10. -/
structure CommandEffect (s t : State) : Prop where
  eq : t = { s with val := t.val, count := t.count, status := t.status, buf := t.buf }
  len : t.buf.len = s.buf.len
  canonical : s.buf.wf = true → t.buf.wf = true
  count_le : t.count ≤ max s.buf.len 10
  status_legal : statusLegal t.status = true

theorem Encodes.effect {i : Instr} {d : Direction} {size : Word → Nat} {enc : Word → List Byte}
    (h : Encodes i d size enc) (hsize : ∀ v, size v ≤ 10) (s : State) :
    ∃ t, exec i s = .next t ∧ CommandEffect s t ∧ t.val = s.val := by
  have h10 := hsize s.val
  rcases Nat.lt_or_ge s.buf.len (size s.val) with hlt | hge
  · exact ⟨_, h.fails hlt, ⟨rfl, rfl, id, by dsimp only; omega, rfl⟩, rfl⟩
  · obtain ⟨m, he, hl, hwf, -, -⟩ := h.fits hge
    exact ⟨_, he, ⟨rfl, hl, hwf, by dsimp only; omega, rfl⟩, rfl⟩

theorem consumed_le_max (upd : Word → Byte → Word) (s : State) (d : Direction) (a : Word) :
    (consume upd (s.buf.inOrder d) a).consumed ≤ max s.buf.len 10 := by
  have := consume_consumed_le upd (s.buf.inOrder d) a
  rw [Memory.length_inOrder] at this
  omega

/-- Every command answers a next state, with a command's effect. -/
theorem exec_effect (i : Instr) (s : State) : ∃ t, exec i s = .next t ∧ CommandEffect s t := by
  have hdrop : ∀ {P : State → Prop}, (∃ t, exec i s = .next t ∧ CommandEffect s t ∧ P t) →
      ∃ t, exec i s = .next t ∧ CommandEffect s t := fun ⟨t, h1, h2, _⟩ => ⟨t, h1, h2⟩
  have hS := fun v => (sizeS_spec v).2.1
  have hO := fun v => (sizeO_spec v).2.1
  cases i with
  | sizeS => exact ⟨_, exec_sizeS s, ⟨rfl, rfl, id, by have := hS s.val; dsimp only; omega, rfl⟩⟩
  | sizeO => exact ⟨_, exec_sizeO s, ⟨rfl, rfl, id, by have := hO s.val; dsimp only; omega, rfl⟩⟩
  | encS => exact hdrop (encodes_encS.effect hS s)
  | encrS => exact hdrop (encodes_encrS.effect hS s)
  | encO => exact hdrop (encodes_encO.effect hO s)
  | encrO => exact hdrop (encodes_encrO.effect hO s)
  | decS => exact ⟨_, exec_decS s, ⟨rfl, rfl, id, consumed_le_max _ s _ _, by dsimp only; split <;> rfl⟩⟩
  | decO => exact ⟨_, exec_decO s, ⟨rfl, rfl, id, consumed_le_max _ s _ _, by dsimp only; split <;> rfl⟩⟩
  | decrS => exact ⟨_, exec_decrS s, ⟨rfl, rfl, id, consumed_le_max _ s _ _, by dsimp only; split <;> rfl⟩⟩
  | decrO => exact ⟨_, exec_decrO s, ⟨rfl, rfl, id, consumed_le_max _ s _ _, by dsimp only; split <;> rfl⟩⟩

/-! ## Command words -/

/-- A word is a command exactly when the encoder writes it for that command (30_encoding.md R79). -/
theorem decode_eq_command_iff {c : Byte} {i : Instr} : decode c = .command i ↔ c = encode i := by
  cases i <;> revert c <;> decide

/-- A word is reserved exactly when it is not legal (30_encoding.md R74). -/
theorem decode_cases (c : Byte) : (legalWord c = true ∧ ∃ i, decode c = .command i) ∨
    (legalWord c = false ∧ ∃ why, decode c = .reserved why) := by
  cases hd : decode c with
  | command i =>
    have hc := decode_eq_command_iff.1 hd
    subst hc
    exact .inl ⟨by cases i <;> rfl, i, rfl⟩
  | reserved why =>
    refine .inr ⟨?_, why, rfl⟩
    have h : ∀ c : Byte, legalWord c = (match decode c with | .command _ => true | .reserved _ => false) := by decide
    rw [h c, hd]

theorem issueCommand_encode (i : Instr) (s : State) : issueCommand (encode i) s = exec i s := by
  rw [issueCommand, decode_eq_command_iff.2 rfl]

theorem issueCommand_reserved {c : Byte} (h : legalWord c = false) (s : State) :
    issueCommand c s = .next (raiseIllegalCommand s) := by
  rcases decode_cases c with ⟨hl, -⟩ | ⟨-, why, hw⟩
  · rw [h] at hl; cases hl
  · rw [issueCommand, hw]

/-- Every write of CMD answers a next state, with a command's effect (IllegalCommand's keeps COUNT). -/
theorem issueCommand_effect (c : Byte) (s : State) :
    (∃ t, issueCommand c s = .next t ∧ CommandEffect s t) ∨ issueCommand c s = .next (raiseIllegalCommand s) := by
  rcases decode_cases c with ⟨-, i, hi⟩ | ⟨hl, -⟩
  · rw [issueCommand, hi]; exact .inl (exec_effect i s)
  · exact .inr (issueCommand_reserved hl s)

/-! ## Steps -/

@[simp] theorem step_nil {s : State} (h : s.pending = []) : step s = .next s := by
  rw [step, performNext, h]

theorem step_cons {s : State} {e : HostEvent} {es : List HostEvent} (h : s.pending = e :: es) :
    step s = perform e (s.withPending es) := by
  rw [step, performNext, h]

@[simp] theorem perform_cmd (c : Byte) (s : State) : perform (HostEvent.cmd c) s = issueCommand c s := rfl

@[simp] theorem perform_wrval (x : Word) (s : State) : perform (HostEvent.wrval x) s = .next { s with val := x } := rfl

theorem perform_setbuf_of_fits {bs : List Byte} (h : bs.length < 2 ^ Config.lenW) (s : State) :
    perform (.setbuf bs) s = .next { s with buf := Memory.ofBytes bs } := by
  rw [perform, attachView, if_pos ((Laws.lenFits_iff _).2 h)]
  rfl

theorem perform_setbuf_of_long {bs : List Byte} (h : 2 ^ Config.lenW ≤ bs.length) (s : State) :
    perform (.setbuf bs) s = .refused (.viewTooLong bs.length) := by
  rw [perform, attachView, if_neg (fun hf => absurd ((Laws.lenFits_iff _).1 hf) (by omega))]

/-! ## Runs of several steps -/

theorem run_of_next (M : Host.Core) {s t : M.State} (k : Nat) (h : M.step s = .next t) : M.run (k + 1) s = M.run k t := by
  simp only [Host.Core.run, h]

theorem run_of_fault (M : Host.Core) {s : M.State} {f : M.Fault} (k : Nat) (h : M.step s = .fault f) :
    M.run (k + 1) s = .fault f := by
  simp only [Host.Core.run, h]

theorem run_of_refused (M : Host.Core) {s : M.State} {r : M.Refusal} (k : Nat) (h : M.step s = .refused r) :
    M.run (k + 1) s = .refused r := by
  simp only [Host.Core.run, h]

/-! ## No access looks at the accesses still to come -/

/-- The same outcome with the accesses still to come replaced. -/
def withPendingAfter (es : List HostEvent) : Host.Outcome State Fault Refusal → Host.Outcome State Fault Refusal
  | .next t => .next (t.withPending es)
  | .fault f => .fault f
  | .refused r => .refused r

theorem encodeCommand_withPending (d : Direction) (size : Word → Nat) (enc : Word → List Byte) (s : State)
    (es : List HostEvent) :
    encodeCommand .none d size enc (s.withPending es) = withPendingAfter es (encodeCommand .none d size enc s) := by
  simp only [encodeCommand, State.withPending_val, State.withPending_buf]
  by_cases h : s.buf.len < size s.val
  · simp only [h, if_true]; rfl
  · simp only [h, if_false]
    cases storeBytes d 0 (enc s.val) s.buf <;> rfl

theorem exec_withPending (i : Instr) (s : State) (es : List HostEvent) :
    exec i (s.withPending es) = withPendingAfter es (exec i s) := by
  cases i with
  | sizeS => rfl
  | sizeO => rfl
  | decS => rw [exec_decS, exec_decS]; rfl
  | decO => rw [exec_decO, exec_decO]; rfl
  | decrS => rw [exec_decrS, exec_decrS]; rfl
  | decrO => rw [exec_decrO, exec_decrO]; rfl
  | encS => exact encodeCommand_withPending _ _ _ s es
  | encrS => exact encodeCommand_withPending _ _ _ s es
  | encO => exact encodeCommand_withPending _ _ _ s es
  | encrO => exact encodeCommand_withPending _ _ _ s es

theorem issueCommand_withPending (c : Byte) (s : State) (es : List HostEvent) :
    issueCommand c (s.withPending es) = withPendingAfter es (issueCommand c s) := by
  unfold issueCommand
  cases decode c with
  | command i => exact exec_withPending i s es
  | reserved _ => rfl

theorem perform_withPending (e : HostEvent) (s : State) (es : List HostEvent) :
    perform e (s.withPending es) = withPendingAfter es (perform e s) := by
  cases e with
  | write w =>
    cases w with
    | cmd c => exact issueCommand_withPending c s es
    | val x => rfl
    | count n => rfl
    | status b => rfl
    | beyond k => rfl
  | read n => rcases n with _ | _ | _ | _ | n <;> rfl
  | setbuf bs =>
    simp only [perform, attachView]
    split <;> rfl
  | getbuf => rfl
  | reset => rfl

/-! ## The invariant, part by part -/

/-- A command's effect keeps the invariant. -/
theorem CommandEffect.inv {s t : State} (h : CommandEffect s t) (hs : s.Inv) : t.Inv where
  view_canonical := h.canonical hs.view_canonical
  len_fits := h.len ▸ hs.len_fits
  count_fits := by
    have h1 := h.count_le
    have h2 := hs.len_fits
    have h3 : 10 < 2 ^ Config.lenW := Laws.lt_lenW_of_lt_16 (by decide)
    omega
  status_legal := h.status_legal

theorem raiseIllegalCommand_inv {s : State} (hs : s.Inv) : (raiseIllegalCommand s).Inv :=
  ⟨hs.view_canonical, hs.len_fits, hs.count_fits, rfl⟩

theorem withBuf_ofBytes_inv {s : State} (hs : s.Inv) {bs : List Byte} (h : bs.length < 2 ^ Config.lenW) :
    (s.withBuf (Memory.ofBytes bs)).Inv :=
  ⟨Memory.wf_ofBytes bs, h, hs.count_fits, hs.status_legal⟩

theorem resetBlock_inv (s : State) : (resetBlock s).Inv :=
  ⟨rfl, Nat.pow_pos (by decide), Nat.pow_pos (by decide), rfl⟩

end Sys2Proof.Machine
end

