-- ==== Sys2Proof/Tests/Slice0.lean ====
section
/-! SUPPORT. Tests of one step each, with results from spec/95_test_vectors.md and the rules' worked examples; the
well-formedness smoke tests; and a witness for the hypotheses of every statement that has some. -/

namespace Sys2Proof.Tests

open Sys2Proof Sys2Proof.Machine

/-- A block with that VAL and view; COUNT is 3 and STATUS 0x01, as in 95_test_vectors.md 2.8. -/
def block (v : Word) (bs : List Byte) : State :=
  { State.reset with val := v, count := 3, status := 0x01, buf := Memory.ofBytes bs }

/-- The end state of 70_reset_and_hazards.md R202 after an outcome, where it is a next state. -/
def endState (o : Host.Outcome State Fault Refusal) : Option (Word × Nat × Byte × List Byte) :=
  match o with
  | .next s => some (s.val, s.count, s.status, s.buf.toBytes)
  | .fault _ => none
  | .refused _ => none

def refusalOf (o : Host.Outcome State Fault Refusal) : Option Refusal :=
  match o with
  | .next _ => none
  | .fault _ => none
  | .refused r => some r

/-! ## Decoding: each word written out as `RES V OP` (30_encoding.md R70 to R72, R79) -/

theorem test_decode_standard :
    decode 0b00000000#8 = .command .sizeS ∧ decode 0b00000001#8 = .command .encS ∧
    decode 0b00000010#8 = .command .decS ∧ decode 0b00000011#8 = .command .encrS ∧
    decode 0b00000100#8 = .command .decrS := by decide

theorem test_decode_overflow_safe :
    decode 0b00001000#8 = .command .sizeO ∧ decode 0b00001001#8 = .command .encO ∧
    decode 0b00001010#8 = .command .decO ∧ decode 0b00001011#8 = .command .encrO ∧
    decode 0b00001100#8 = .command .decrO := by decide

theorem test_decode_reserved :
    decode 0b00000101#8 = .reserved .setAsideExtend ∧ decode 0b00001110#8 = .reserved .setAsideIsExtended ∧
    decode 0b00001111#8 = .reserved .reservedOp ∧ decode 0b10000001#8 = .reserved .resBitsSet := by decide

theorem test_table_words : Instr.all.map (fun i => decodeTableWord 8 (encode i).toNat) = Instr.all.map some := by decide

theorem test_table_word_too_long : decodeTableWord 16 0x0001 = none ∧ decodeTableWord 8 0x101 = none := by decide

theorem test_placed_word_runs_from_reset :
    endState (step (State.reset.withFetchWord 8 0x09)) = some (0, 1, 0x02, []) := by decide

/-! ## Well-formedness: every check refuses an ill-formed term (45_host_access.md R154, R158) -/

theorem test_read_of_register_4_ill_formed :
    (HostEvent.read 4).wellFormed = false ∧ (HostEvent.read 3).wellFormed = true := by decide

theorem test_write_of_register_4_ill_formed : (HostEvent.write (.beyond 0)).wellFormed = false := by decide

theorem test_view_too_long_ill_formed (bs : List Byte) (h : bs.length = 2 ^ Config.lenW) :
    (HostEvent.setbuf bs).wellFormed = false := by
  have := (Laws.lenFits_iff bs.length).not.2 (by omega)
  simpa [HostEvent.wellFormed] using this

theorem test_every_command_well_formed : Instr.all.all Instr.wellFormed = true := by decide

/-! ## Commands (95_test_vectors.md) -/

theorem test_sizeS_boundary : endState (exec .sizeS (block 0x80 [])) = some (0x80, 2, 0x00, []) := by decide

theorem test_sizeS_max : endState (exec .sizeS (block 0xFFFFFFFFFFFFFFFF [])) = some (0xFFFFFFFFFFFFFFFF, 10, 0x00, []) := by
  decide

/-- S1. -/
theorem test_encS_literal :
    endState (exec .encS (block 0x2005 [0xEE, 0xEE, 0xEE, 0xEE])) = some (0x2005, 2, 0x00, [0xC0, 0x05, 0xEE, 0xEE]) := by
  decide

/-- V-E2. -/
theorem test_encS_capacity : endState (exec .encS (block 0x3FFF [0xEE])) = some (0x3FFF, 2, 0x02, [0xEE]) := by decide

/-- V-DS4 and V-DS5: stops at the terminal byte; a nonzero start is shifted up. -/
theorem test_decS_stops : endState (exec .decS (block 0x0 [0x81, 0x00, 0x99])) = some (0x80, 2, 0x01, [0x81, 0x00, 0x99]) ∧
    endState (exec .decS (block 0x1 [0x05])) = some (0x85, 1, 0x01, [0x05]) := by decide

/-- V-DS8: overlong. -/
theorem test_decS_overlong :
    endState (exec .decS (block 0x0 [0xFF, 0xFF, 0xFF, 0xFF, 0xFF, 0xFF, 0xFF, 0xFF, 0xFF, 0xFF, 0x7F])) =
      some (0xFFFFFFFFFFFFFFFF, 11, 0x01, [0xFF, 0xFF, 0xFF, 0xFF, 0xFF, 0xFF, 0xFF, 0xFF, 0xFF, 0xFF, 0x7F]) := by decide

/-- V-E12. -/
theorem test_encrS_mirrored :
    endState (exec .encrS (block 0x2005 [0x11, 0x22, 0x33, 0x00, 0x00])) =
      some (0x2005, 2, 0x00, [0x11, 0x22, 0x33, 0x05, 0xC0]) := by decide

/-- V-E11. -/
theorem test_encrS_capacity :
    endState (exec .encrS (block 0x4000 [0xEE, 0xEE])) = some (0x4000, 3, 0x02, [0xEE, 0xEE]) := by decide

/-- V-DR3 and V-DR6. -/
theorem test_decrS_tail : endState (exec .decrS (block 0x0 [0x99, 0x05, 0xC0])) = some (0x2005, 2, 0x01, [0x99, 0x05, 0xC0]) ∧
    endState (exec .decrS (block 0x7 [0x01])) = some (0x381, 1, 0x01, [0x01]) := by decide

/-- V-DR4. -/
theorem test_decrS_no_terminal : endState (exec .decrS (block 0x0 [0xC0, 0xC0])) = some (0x2040, 2, 0x02, [0xC0, 0xC0]) := by
  decide

theorem test_sizeO_low_bit : endState (exec .sizeO (block 0x1 [])) = some (0x1, 10, 0x00, []) := by decide

theorem test_sizeO_even : endState (exec .sizeO (block 0x4000 [])) = some (0x4000, 8, 0x00, []) := by decide

/-- S2. -/
theorem test_encO_literal :
    endState (exec .encO (block 0x2005 [0xEE, 0xEE, 0xEE, 0xEE, 0xEE, 0xEE, 0xEE, 0xEE, 0xEE, 0xEE, 0xEE])) =
      some (0x2005, 10, 0x00, [0xC0, 0x82, 0xA0, 0x80, 0x80, 0x80, 0x80, 0x80, 0x80, 0x00, 0xEE]) := by decide

/-- Table 2.1, bit 0 clear: the pre-shift. -/
theorem test_encO_pre_shift :
    endState (exec .encO (block 0x102030405060708 [0, 0, 0, 0, 0, 0, 0, 0, 0])) =
      some (0x102030405060708, 9, 0x00, [0x84, 0x87, 0x8C, 0x94, 0xA0, 0xB0, 0xC0, 0xC0, 0x00]) := by decide

/-- V-DO4: a nonzero start is shifted down. -/
theorem test_decO_start : endState (exec .decO (block 0x1234 [0x40])) = some (0x8000000000000024, 1, 0x01, [0x40]) := by decide

/-- V-DO7: the shift is logical, no rotation. -/
theorem test_decO_overlong :
    endState (exec .decO (block 0x0 [0xC0, 0x80, 0x80, 0x80, 0x80, 0x80, 0x80, 0x80, 0x80, 0x80, 0x00])) =
      some (0x0, 11, 0x01, [0xC0, 0x80, 0x80, 0x80, 0x80, 0x80, 0x80, 0x80, 0x80, 0x80, 0x00]) := by decide

/-- V-E15. -/
theorem test_encrO_mirrored :
    endState (exec .encrO (block 0x100000000000000 [0xAA, 0xBB, 0xCC])) =
      some (0x100000000000000, 2, 0x00, [0xAA, 0x00, 0xC0]) := by decide

/-- V-E14. -/
theorem test_encrO_capacity :
    endState (exec .encrO (block 0x80 [0xEE, 0xEE, 0xEE, 0xEE, 0xEE, 0xEE, 0xEE, 0xEE])) =
      some (0x80, 9, 0x02, [0xEE, 0xEE, 0xEE, 0xEE, 0xEE, 0xEE, 0xEE, 0xEE]) := by decide

/-- V-DRO2. -/
theorem test_decrO_tail : endState (exec .decrO (block 0x0 [0x00, 0xC0])) = some (0x100000000000000, 2, 0x01, [0x00, 0xC0]) := by
  decide

/-- V-DRO3. -/
theorem test_decrO_no_terminal :
    endState (exec .decrO (block 0x0 [0xC0, 0x80])) = some (0x8000000000000000, 2, 0x02, [0xC0, 0x80]) := by decide

/-! ## Reserved words and host accesses (95_test_vectors.md 2.8) -/

/-- V-I1 to V-I5. -/
theorem test_reserved_words :
    [0x05, 0x06, 0x07, 0x0D, 0x0F, 0x10, 0x81, 0xFF].map (fun c => endState (perform (HostEvent.cmd c) (block 0x55 [0xC0, 0x05]))) =
      List.replicate 8 (some (0x55, 3, 0x04, [0xC0, 0x05])) := by decide

/-- V-H1, V-H2. -/
theorem test_ignored_writes_and_cmd_read :
    endState (perform (.write (.count 7)) (block 0x55 [0xC0])) = some (0x55, 3, 0x01, [0xC0]) ∧
    endState (perform (.write (.status 7)) (block 0x55 [0xC0])) = some (0x55, 3, 0x01, [0xC0]) ∧
    endState (perform HostEvent.rdcmd (block 0x55 [0xC0])) = some (0x55, 3, 0x01, [0xC0]) := by decide

/-- V-H3. -/
theorem test_setbuf : endState (perform (.setbuf [0xAA]) (block 0x55 [0xC0, 0x05])) = some (0x55, 3, 0x01, [0xAA]) := by decide

/-- V-H6. -/
theorem test_register_4_refused :
    refusalOf (perform (.read 4) (block 0x55 [])) = some (.registerNotImplemented 4) := by decide

/-- V-R1. -/
theorem test_reset_event : endState (perform .reset (block 0x55 [0xC0, 0x05])) = some (0, 0, 0x00, []) := by decide

/-! ## The assembler (30_encoding.md R77, R78) -/

theorem test_parse_command : parseLine [' ', 'E', 'N', 'C', 'R', '.', 'O', ' ', ';', ' ', 'x'] = some (some (.command .encrO)) := by
  decide

theorem test_parse_setbuf :
    parseLine ['S', 'E', 'T', 'B', 'U', 'F', ' ', '[', '0', 'x', 'C', '0', ',', ' ', '5', ']'] =
      some (some (.setbuf (.list [0xC0, 0x05]))) := by decide

theorem test_parse_fill :
    parseLine ['S', 'E', 'T', 'B', 'U', 'F', ' ', 'f', 'i', 'l', 'l', '(', '2', ',', ' ', '0', 'x', 'E', 'E', ')'] =
      some (some (.setbuf (.fill 2 0xEE))) := by decide

theorem test_parse_pseudo :
    (parseProgram ['C', 'L', 'R', 'V', 'A', 'L', '\n', ';', '\n', 'F', 'D', 'E', 'C', '.', 'S']).map assemble =
      some [HostEvent.wrval 0, HostEvent.wrval 0, HostEvent.cmd 0x02] := by decide

/-! ## Witnesses: states and operands that meet each statement's hypotheses -/

/-- The reserved words next to the table's rows. -/
theorem witness_commandTable :
    ∀ c ∈ [(0x05 : Byte), 0x07, 0x0D, 0x10, 0xFF],
      c.toNat ∉ [0x00, 0x01, 0x02, 0x03, 0x04, 0x08, 0x09, 0x0A, 0x0B, 0x0C] := by decide

theorem witness_decodeOfEncode : Instr.wellFormed .decrO = true ∧ decode 0x0C = .command .decrO := by decide

theorem witness_stepPerforms :
    State.reset.pending = [] ∧ ({ State.reset with pending := [HostEvent.rdval] }).pending = HostEvent.rdval :: [] := by decide

theorem witness_stepRunsTheDecodedCommand :
    ({ State.reset with pending := [HostEvent.cmd 0x0B] }).pending = HostEvent.cmd 0x0B :: [] ∧
    decode 0x0B = .command .encrO ∧ Instr.wellFormed .encrO = true := by decide

theorem witness_legalAccess : (HostEvent.setbuf [0xAA]).wellFormed = true ∧ (HostEvent.read 4).wellFormed = false := by decide

theorem block_inv (v : Word) {bs : List Byte} (h : bs.length < 16) : (block v bs).Inv :=
  ⟨Memory.wf_ofBytes bs, Laws.lt_lenW_of_lt_16 h, Laws.lt_lenW_of_lt_16 (show 3 < 16 by decide), rfl⟩

theorem witness_everyStepKeepsTheInvariant :
    ∃ t, ({ block 0x7F [0xEE] with pending := [HostEvent.cmd 0x01] }).Inv ∧
      step { block 0x7F [0xEE] with pending := [HostEvent.cmd 0x01] } = .next t :=
  have h := block_inv 0x7F (bs := [0xEE]) (by decide)
  ⟨_, ⟨h.view_canonical, h.len_fits, h.count_fits, h.status_legal⟩, rfl⟩

theorem witness_everyCommandEnds :
    decode 0x00 = .command .sizeS ∧ Instr.sizeS ∈ [Instr.sizeS, .sizeO] ∧
    decode 0x0B = .command .encrO ∧ Instr.encrO ∈ [Instr.encS, .encrS, .encO, .encrO] ∧
    decode 0x0A = .command .decO ∧ Instr.decO ∈ [Instr.decS, .decO] ∧
    decode 0x04 = .command .decrS ∧ Instr.decrS ∈ [Instr.decrS, .decrO] ∧
    decode 0x05 = .reserved .setAsideExtend := by decide

theorem witness_reservedWord :
    (0x10 : Byte) >>> 4 ≠ 0 ∧ (0x0D : Byte) &&& 7 = 5 ∧ (0x06 : Byte) &&& 7 = 6 ∧ (0x07 : Byte) &&& 7 = 7 := by decide

theorem witness_sizeO :
    (block 0 []).val = 0 ∧ (block 1 []).val.toNat = 2 ^ 0 * (2 * 0 + 1) ∧
    (block 0x8000000000000000 []).val.toNat = 2 ^ 63 * (2 * 0 + 1) := by decide

/-- LEN exactly the size, and one less. -/
theorem witness_encodeS :
    sizeS (block 0x80 [0, 0]).val ≤ (block 0x80 [0, 0]).buf.len ∧ (block 0x80 [0]).buf.len < sizeS (block 0x80 [0]).val := by
  decide

/-- LEN exactly the size, and one less, for a one-byte and a ten-byte encoding. -/
theorem witness_encodeO :
    sizeO (block 0x4000000000000000 [0]).val ≤ (block 0x4000000000000000 [0]).buf.len ∧
    (block 1 [0, 0, 0, 0, 0, 0, 0, 0, 0]).buf.len < sizeO (block 1 [0, 0, 0, 0, 0, 0, 0, 0, 0]).val := by decide

theorem witness_writtenEncodings :
    ∀ x ∈ [(Instr.encS, Direction.forward), (.encrS, .reversed), (.encO, .forward), (.encrO, .reversed)],
      ∃ t, exec x.1 (block 0x4000000000000000 (List.replicate 10 0xEE)) = .next t ∧ t.status = 0x00 ∧
        (block 0x4000000000000000 (List.replicate 10 0xEE)).val ≠ 0 := by
  simp only [List.mem_cons, List.not_mem_nil, or_false, forall_eq_or_imp, forall_eq]
  exact ⟨⟨_, rfl, rfl, by decide⟩, ⟨_, rfl, rfl, by decide⟩, ⟨_, rfl, rfl, by decide⟩, ⟨_, rfl, rfl, by decide⟩⟩

theorem witness_zeroEncodes : (block 0 [0xEE]).val = 0 ∧ 1 ≤ (block 0 [0xEE]).buf.len := by decide

/-- A terminal byte first, and last, in either order; none, and the empty view. -/
theorem witness_decodes :
    (block 0 [0x01]).buf.FirstTerminal .forward 0 ∧ (block 0 [0x81, 0x00]).buf.FirstTerminal .forward 1 ∧
    (block 0 [0x01]).buf.FirstTerminal .reversed 0 ∧ (block 0 [0x00, 0x81]).buf.FirstTerminal .reversed 1 ∧
    (block 0 [0x81, 0x80]).buf.NoTerminal .forward ∧ (block 0 []).buf.NoTerminal .forward ∧
    (block 0 [0x81, 0x80]).buf.NoTerminal .reversed ∧ (block 0 []).buf.NoTerminal .reversed := by
  unfold Memory.FirstTerminal Memory.NoTerminal
  decide

theorem witness_bytesAfterTheTerminal :
    (block 0 [0x81, 0x00, 0x99]).buf.FirstTerminal .forward 1 ∧ 1 < (block 0 [0x81, 0x00]).buf.len ∧
    (∀ k ≤ 1, (block 0 [0x81, 0x00]).buf.nth .forward k = (block 0 [0x81, 0x00, 0x99]).buf.nth .forward k) ∧
    (block 0 [0x99, 0x00, 0x81]).buf.FirstTerminal .reversed 1 ∧ 1 < (block 0 [0x00, 0x81]).buf.len ∧
    (∀ k ≤ 1, (block 0 [0x00, 0x81]).buf.nth .reversed k = (block 0 [0x99, 0x00, 0x81]).buf.nth .reversed k) := by
  unfold Memory.FirstTerminal
  decide

theorem witness_leadingExtensionBytes :
    (block 0 [0x80, 0x80, 0xC0, 0x05]).buf.toBytes = List.replicate 2 0x80 ++ (block 0 [0xC0, 0x05]).buf.toBytes ∧
    (block 0 [0x05, 0xC0, 0x80]).buf.toBytes = (block 0 [0x05, 0xC0]).buf.toBytes ++ List.replicate 1 0x80 := by decide

theorem witness_tenGroups :
    (block 0 [0x80, 0x80, 0x80, 0x80, 0x80, 0x80, 0x80, 0x80, 0x80, 0x01]).buf.FirstTerminal .forward 9 ∧
    (block 0 [0x01, 0x80, 0x80, 0x80, 0x80, 0x80, 0x80, 0x80, 0x80, 0x80]).buf.FirstTerminal .reversed 9 := by
  unfold Memory.FirstTerminal
  decide

theorem witness_roundTrips : sizeS 0xFFFFFFFFFFFFFFFF ≤ (block 0 (List.replicate 10 0)).buf.len ∧
    sizeO 0xFFFFFFFFFFFFFFFF ≤ (block 0 (List.replicate 10 0)).buf.len := by decide

/-- One-byte pieces with an empty one among them. -/
theorem witness_progressiveDecode :
    [[(0x83 : Byte)], [], [0xFF], [0x7F]].getLast? ≠ some [] ∧
    selfDelimited ([[(0x83 : Byte)], [], [0xFF], [0x7F]] : List (List Byte)).flatten ∧
    (([[(0x83 : Byte)], [], [0xFF], [0x7F]] : List (List Byte)).flatten ++ [0x77]).length < 2 ^ Config.lenW :=
  ⟨by decide, ⟨[0x83, 0xFF], 0x7F, rfl, by decide, rfl⟩, Laws.lt_lenW_of_lt_16 (by decide)⟩

theorem witness_reversedAgrees :
    (block 0 [0xC0, 0x05, 0x99]).buf.toBytes = (block 0 [0x99, 0x05, 0xC0]).buf.toBytes.reverse ∧
    (block 0 [0xC0, 0x05, 0x99]).buf.FirstTerminal .forward 1 ∧
    sizeS (block 5 [0]).val ≤ (block 5 [0]).buf.len ∧
    sizeO (block 0x8000000000000000 [0]).val ≤ (block 0x8000000000000000 [0]).buf.len := by
  unfold Memory.FirstTerminal
  decide

theorem witness_commandsWriteOnlyTheirOperands :
    ∃ t u v, exec .sizeO (block 5 [0x05]) = .next t ∧ exec .encrS (block 5 [0x05]) = .next u ∧
      exec .decO (block 5 [0x05]) = .next v := ⟨_, _, _, rfl, rfl, rfl⟩

theorem witness_commandsReadOnlyValAndView :
    ({ block 5 [0x05] with count := 9, status := 0x02 }).val = (block 5 [0x05]).val ∧
    ({ block 5 [0x05] with count := 9, status := 0x02 }).buf = (block 5 [0x05]).buf := by decide

/-- An access that changes VAL, one that changes LEN, one that changes the view's bytes, one that changes COUNT and STATUS. -/
theorem witness_onlyTheseAccesses :
    (∃ t, perform (HostEvent.cmd 0x02) (block 0 [0x05]) = .next t ∧ t.val ≠ (block 0 [0x05]).val) ∧
    (∃ t, perform (.setbuf []) (block 0 [0x05]) = .next t ∧ t.buf.len ≠ (block 0 [0x05]).buf.len) ∧
    (∃ t, perform (HostEvent.cmd 0x01) (block 0 [0x05]) = .next t ∧ t.buf ≠ (block 0 [0x05]).buf) ∧
    (∃ t, perform (HostEvent.cmd 0x00) (block 0 [0x05]) = .next t ∧
      (t.count ≠ (block 0 [0x05]).count ∨ t.status ≠ (block 0 [0x05]).status)) :=
  ⟨⟨_, rfl, by decide⟩, ⟨_, rfl, by decide⟩, ⟨_, rfl, by decide⟩, ⟨_, rfl, by decide⟩⟩

theorem witness_setbuf :
    ([0xAA] : List Byte).length ≤ 2 ^ Config.lenW - 1 ∧ (List.replicate (2 ^ Config.lenW - 1) (0 : Byte)).length ≤ 2 ^ Config.lenW - 1 ∧
    2 ^ Config.lenW - 1 < (List.replicate (2 ^ Config.lenW) (0 : Byte)).length := by
  have h : 1 < 2 ^ Config.lenW := Laws.lt_lenW_of_lt_16 (by decide)
  simp only [List.length_replicate, List.length_singleton]
  omega

theorem witness_anyPrefix :
    (block 0x80 [0xEE]).buf.len < sizeS (block 0x80 [0xEE]).val ∧ (block 1 []).buf.len < sizeO (block 1 []).val := by decide

theorem witness_blocks :
    ∃ b₁ b₂, (0 : Nat) ≠ 1 ∧
      stepBlock 0 [{ block 0 [] with pending := [HostEvent.wrval 7] }, block 1 []] = .next b₁ ∧
      stepBlock 1 [{ block 0 [] with pending := [HostEvent.wrval 7] }, block 1 []] = .next b₂ :=
  ⟨_, _, by decide, rfl, rfl⟩

end Sys2Proof.Tests
end

/-! ## Proofs of 00_scope.md: the parameters' other values (R7) and several blocks (R8) -/

namespace Sys2Proof.Machine

/-- `P_REV_ACC_INIT` only chooses the value the scan starts from (00_scope.md R7), and that value is 0 both under
`CLEAR` and under `KEEP` with VAL = 0. -/
theorem decodeReversed_clear (upd : Word → Byte → Word) (s : State) :
    decodeReversed .clear upd s = decodeReversed .keep upd { s with val := 0 } := by
  have hstart : reversedStart .clear s.val = reversedStart .keep 0 := rfl
  simp only [decodeReversed_eq, hstart]

/-- Settles O48: under `KEEP` a reversed decode is the command this hardware performs. -/
theorem clearStartsReversedDecodesFromZero : Obligations.ClearStartsReversedDecodesFromZero := by
  unfold Obligations.ClearStartsReversedDecodesFromZero
  intro s
  exact ⟨decodeReversed_clear updS s, decodeReversed_clear updO s⟩

/-- All that a step of block `k` can do when it answers next blocks: it replaces that block's state by its step. -/
theorem stepBlock_eq_next_iff {k : Nat} {bs bs' : Blocks} :
    stepBlock k bs = .next bs' ↔ ∃ s t, bs[k]? = some s ∧ step s = .next t ∧ bs' = bs.set k t := by
  cases hk : bs[k]? with
  | none => simp [stepBlock, hk]
  | some s => cases hs : step s <;> simp [stepBlock, hk, hs, eq_comm]

/-- Settles O49, from what replacing one entry of a list does to the others. -/
theorem blocksShareNoState : Obligations.BlocksShareNoState := by
  unfold Obligations.BlocksShareNoState
  intro k bs bs' h
  obtain ⟨s, t, hk, hstep, rfl⟩ := stepBlock_eq_next_iff.1 h
  have hlt : k < bs.length := (List.getElem?_eq_some_iff.1 hk).1
  refine ⟨List.length_set, fun j hj => ?_, s, t, hk, hstep, ?_⟩
  · exact List.getElem?_set_ne hj.symm
  · exact List.getElem?_set_self hlt

end Sys2Proof.Machine

/-! ## Proofs of 10_state.md: reset, the invariant, and what each register depends on -/

namespace Sys2Proof.Machine

/-! ### What one host access can do -/

/-- All that a host access `e` can do to a block in state `s` when it answers a next state, said once for every access
(45_host_access.md R150 to R157, 70_reset_and_hazards.md R190). -/
inductive PortMove (s : State) : HostEvent → State → Prop where
  /-- A legal word in CMD performs its row. -/
  | command (i : Instr) {t : State} (h : exec i s = .next t) : PortMove s (HostEvent.cmd (encode i)) t
  /-- A reserved word in CMD raises IllegalCommand. -/
  | reserved (c : Byte) (h : legalWord c = false) : PortMove s (HostEvent.cmd c) (raiseIllegalCommand s)
  | wrval (x : Word) : PortMove s (HostEvent.wrval x) (s.withVal x)
  | setbuf (bs : List Byte) (h : bs.length < 2 ^ Config.lenW) :
      PortMove s (.setbuf bs) (s.withBuf (Memory.ofBytes bs))
  | reset : PortMove s .reset (resetBlock s)
  | ignoredCount (n : Nat) : PortMove s (.write (.count n)) s
  | ignoredStatus (b : Byte) : PortMove s (.write (.status b)) s
  | read (n : Nat) (r : Reply) : PortMove s (.read n) (s.withReply r)
  | getbuf : PortMove s .getbuf (s.withReply (.bytes s.buf.toBytes))

theorem portMove_of_issueCommand {c : Byte} {s t : State} (h : issueCommand c s = .next t) :
    PortMove s (HostEvent.cmd c) t := by
  rcases decode_cases c with ⟨-, i, hi⟩ | ⟨hl, -⟩
  · obtain rfl := decode_eq_command_iff.1 hi
    exact .command i (issueCommand_encode i s ▸ h)
  · rw [issueCommand_reserved hl] at h
    cases h
    exact .reserved c hl

theorem portMove_of_attachView {bs : List Byte} {s t : State} (h : attachView bs s = .next t) :
    PortMove s (.setbuf bs) t := by
  unfold attachView at h
  split at h
  · next hfits =>
    cases h
    exact .setbuf bs ((Laws.lenFits_iff _).1 hfits)
  · cases h

theorem portMove_of_readRegister {n : Nat} {s t : State} (h : readRegister n s = .next t) :
    PortMove s (.read n) t := by
  rcases n with _ | _ | _ | _ | n <;> cases h <;> exact .read _ _

/-- An access that answers a next state makes one of the moves of `PortMove`. -/
theorem portMove_of_perform {e : HostEvent} {s t : State} (h : perform e s = .next t) : PortMove s e t := by
  cases e with
  | write w =>
    cases w with
    | cmd c => exact portMove_of_issueCommand h
    | val x => cases h; exact .wrval x
    | count n => cases h; exact .ignoredCount n
    | status b => cases h; exact .ignoredStatus b
    | beyond k => cases h
  | read n => exact portMove_of_readRegister h
  | setbuf bs => exact portMove_of_attachView h
  | getbuf => cases h; exact .getbuf
  | reset => cases h; exact .reset

theorem commandEffect_of_exec {i : Instr} {s t : State} (h : exec i s = .next t) : CommandEffect s t := by
  obtain ⟨u, hu, heffect⟩ := exec_effect i s
  cases hu.symm.trans h
  exact heffect

/-! ### The invariant -/

/-- The invariant speaks of the view, COUNT and STATUS alone. -/
theorem State.Inv.of_eq {s t : State} (hs : s.Inv) (hbuf : t.buf = s.buf) (hcount : t.count = s.count)
    (hstatus : t.status = s.status) : t.Inv where
  view_canonical := hbuf ▸ hs.view_canonical
  len_fits := hbuf ▸ hs.len_fits
  count_fits := hcount ▸ hs.count_fits
  status_legal := hstatus ▸ hs.status_legal

theorem PortMove.inv {e : HostEvent} {s t : State} (h : PortMove s e t) (hs : s.Inv) : t.Inv := by
  cases h with
  | command i hi => exact (commandEffect_of_exec hi).inv hs
  | reserved => exact raiseIllegalCommand_inv hs
  | wrval | ignoredCount | ignoredStatus | read | getbuf => exact hs.of_eq rfl rfl rfl
  | setbuf bs hlen => exact withBuf_ofBytes_inv hs hlen
  | reset => exact resetBlock_inv s

/-- Settles O15: a step stands still, or is the oldest pending access, and every move of an access keeps the
invariant. -/
theorem everyStepKeepsTheInvariant : Obligations.EveryStepKeepsTheInvariant := by
  unfold Obligations.EveryStepKeepsTheInvariant
  intro s t hs hstep
  cases hp : s.pending with
  | nil =>
    rw [step_nil hp] at hstep
    cases hstep
    exact hs
  | cons e es =>
    rw [step_cons hp] at hstep
    exact (portMove_of_perform hstep).inv (hs.of_eq rfl rfl rfl)

/-- Settles O14: the state after reset is what the reset event leaves of it. -/
theorem resetStateMeetsTheInvariant : Obligations.ResetStateMeetsTheInvariant := by
  unfold Obligations.ResetStateMeetsTheInvariant
  exact resetBlock_inv State.reset

/-- Settles O4: each register's reset value is written in `State.reset`. -/
theorem resetStateIsEmpty : Obligations.ResetStateIsEmpty := by
  unfold Obligations.ResetStateIsEmpty
  exact ⟨rfl, rfl, rfl, rfl⟩

/-! ### A command depends on VAL and the view alone -/

/-- The outcome with the registers and the view a command left, the rest of the state being that of `s'`. -/
def resultsIn (s' : State) : Host.Outcome State Fault Refusal → Host.Outcome State Fault Refusal
  | .next t => .next { s' with val := t.val, count := t.count, status := t.status, buf := t.buf }
  | .fault f => .fault f
  | .refused r => .refused r

/-- An encode that fits, by the view its bytes leave. -/
theorem encodeCommand_of_storeBytes {p : FailWrite} {d : Direction} {size : Word → Nat} {enc : Word → List Byte}
    {s : State} {m : Memory} (h : size s.val ≤ s.buf.len) (hs : storeBytes d 0 (enc s.val) s.buf = some m) :
    encodeCommand p d size enc s = .next { s with buf := m, count := size s.val, status := 0x00 } := by
  simp only [encodeCommand, if_neg (Nat.not_lt.2 h), hs]
  rfl

section
variable {s s' : State} (hval : s'.val = s.val) (hbuf : s'.buf = s.buf)
include hval hbuf

theorem encodeCommand_eq_resultsIn (d : Direction) {size : Word → Nat} {enc : Word → List Byte}
    (hlen : ∀ v, (enc v).length = size v) :
    encodeCommand .none d size enc s' = resultsIn s' (encodeCommand .none d size enc s) := by
  have hsize := hlen s.val
  rcases Nat.lt_or_ge s.buf.len (size s.val) with hlt | hge
  · have hlt' : s'.buf.len < size s'.val := by rwa [hval, hbuf]
    rw [encodeCommand_of_lt hlt, encodeCommand_of_lt hlt', hval, hbuf]
    rfl
  · have hge' : size s'.val ≤ s'.buf.len := by rwa [hval, hbuf]
    obtain ⟨m, hs, -⟩ := storeBytes_spec d (bs := enc s.val) (k := 0) (m := s.buf) (by omega)
    have hs' : storeBytes d 0 (enc s'.val) s'.buf = some m := by rwa [hval, hbuf]
    rw [encodeCommand_of_storeBytes hge hs, encodeCommand_of_storeBytes hge' hs', hval]
    rfl

/-- From two states with the same VAL and view a command has the same results. -/
theorem exec_eq_resultsIn (i : Instr) : exec i s' = resultsIn s' (exec i s) := by
  cases i with
  | sizeS => rw [exec_sizeS, exec_sizeS, hval, hbuf]; rfl
  | sizeO => rw [exec_sizeO, exec_sizeO, hval, hbuf]; rfl
  | decS => rw [exec_decS, exec_decS, hval, hbuf]; rfl
  | decO => rw [exec_decO, exec_decO, hval, hbuf]; rfl
  | decrS => rw [exec_decrS, exec_decrS, hval, hbuf]; rfl
  | decrO => rw [exec_decrO, exec_decrO, hval, hbuf]; rfl
  | encS => exact encodeCommand_eq_resultsIn hval hbuf _ length_encBytesS
  | encrS => exact encodeCommand_eq_resultsIn hval hbuf _ length_encBytesS
  | encO => exact encodeCommand_eq_resultsIn hval hbuf _ length_encBytesO
  | encrO => exact encodeCommand_eq_resultsIn hval hbuf _ length_encBytesO

end

/-- Settles O40: a command completes, and its results are those from any state with the same VAL and view. -/
theorem commandsReadOnlyValAndView : Obligations.CommandsReadOnlyValAndView := by
  unfold Obligations.CommandsReadOnlyValAndView
  intro i s s' hval hbuf
  obtain ⟨t, ht, -⟩ := exec_effect i s
  exact ⟨t, _, ht, (exec_eq_resultsIn hval hbuf i).trans (congrArg (resultsIn s') ht), rfl, rfl, rfl, rfl⟩

/-! ### What changes each register -/

theorem Encodes.val_eq {i : Instr} {d : Direction} {size : Word → Nat} {enc : Word → List Byte}
    (h : Encodes i d size enc) (hsize : ∀ v, size v ≤ 10) {s t : State} (hexec : exec i s = .next t) :
    t.val = s.val := by
  obtain ⟨u, hu, -, hval⟩ := h.effect hsize s
  cases hu.symm.trans hexec
  exact hval

/-- Only a decode writes VAL (30_encoding.md R75). -/
theorem exec_val_eq_or_decode {i : Instr} {s t : State} (h : exec i s = .next t) :
    t.val = s.val ∨ i ∈ [Instr.decS, .decO, .decrS, .decrO] := by
  have hS := fun v => (sizeS_spec v).2.1
  have hO := fun v => (sizeO_spec v).2.1
  cases i with
  | sizeS => cases h; exact .inl rfl
  | sizeO => cases h; exact .inl rfl
  | encS => exact .inl (encodes_encS.val_eq hS h)
  | encrS => exact .inl (encodes_encrS.val_eq hS h)
  | encO => exact .inl (encodes_encO.val_eq hO h)
  | encrO => exact .inl (encodes_encrO.val_eq hO h)
  | decS | decO | decrS | decrO => exact .inr (by decide)

/-- Only an encode writes the view (30_encoding.md R75). -/
theorem exec_buf_eq_or_encode {i : Instr} {s t : State} (h : exec i s = .next t) :
    t.buf = s.buf ∨ i ∈ [Instr.encS, .encO, .encrS, .encrO] := by
  cases i with
  | sizeS => cases h; exact .inl rfl
  | sizeO => cases h; exact .inl rfl
  | decS => cases (exec_decS s).symm.trans h; exact .inl rfl
  | decO => cases (exec_decO s).symm.trans h; exact .inl rfl
  | decrS => cases (exec_decrS s).symm.trans h; exact .inl rfl
  | decrO => cases (exec_decrO s).symm.trans h; exact .inl rfl
  | encS | encO | encrS | encrO => exact .inr (by decide)

/-- Settles O41, move by move: each claims a change of the registers it writes, and leaves the others alone. -/
theorem onlyTheseAccessesChangeEachRegister : Obligations.OnlyTheseAccessesChangeEachRegister := by
  unfold Obligations.OnlyTheseAccessesChangeEachRegister
  intro e s t h
  cases portMove_of_perform h with
  | command i hi =>
    exact ⟨fun hval => .inr (.inr ⟨i, (exec_val_eq_or_decode hi).resolve_left hval, rfl⟩),
      fun hlen => absurd (commandEffect_of_exec hi).len hlen,
      fun hbuf => .inr (.inr ⟨i, (exec_buf_eq_or_encode hi).resolve_left hbuf, rfl⟩),
      fun _ => .inr ⟨_, rfl⟩⟩
  | reserved c => exact ⟨absurd rfl, absurd rfl, absurd rfl, fun _ => .inr ⟨c, rfl⟩⟩
  | wrval x => exact ⟨fun _ => .inr (.inl ⟨x, rfl⟩), absurd rfl, absurd rfl, Or.rec (absurd rfl) (absurd rfl)⟩
  | setbuf bs => exact ⟨absurd rfl, fun _ => .inr ⟨bs, rfl⟩, fun _ => .inr (.inl ⟨bs, rfl⟩),
      Or.rec (absurd rfl) (absurd rfl)⟩
  | reset => exact ⟨fun _ => .inl rfl, fun _ => .inl rfl, fun _ => .inl rfl, fun _ => .inl rfl⟩
  | ignoredCount | ignoredStatus | read | getbuf =>
    exact ⟨absurd rfl, absurd rfl, absurd rfl, Or.rec (absurd rfl) (absurd rfl)⟩

end Sys2Proof.Machine

/-! ## Proofs of 20_memory.md: no access outside the view (R42), and no fetch (R50) -/

namespace Sys2Proof.Machine

/-! ### The view's bounds -/

/-- Every write of CMD completes, whether its word is legal or reserved. -/
theorem issueCommand_completes (c : Byte) (s : State) : ∃ t, issueCommand c s = .next t := by
  rcases issueCommand_effect c s with ⟨t, ht, -⟩ | hill
  · exact ⟨t, ht⟩
  · exact ⟨_, hill⟩

/-- Of the accesses only a command reaches the view byte by byte, and a command completes; the others complete or are
refused. -/
theorem perform_ne_fault (e : HostEvent) (s : State) (f : Fault) : perform e s ≠ .fault f := by
  cases e with
  | write w =>
    cases w with
    | cmd c =>
      obtain ⟨t, ht⟩ := issueCommand_completes c s
      simp [ht]
    | val | count | status | beyond => exact nofun
  | read n => rcases n with _ | _ | _ | _ | n <;> exact nofun
  | setbuf bs =>
    rcases Nat.lt_or_ge bs.length (2 ^ Config.lenW) with hfits | hlong
    · simp [perform_setbuf_of_fits hfits]
    · simp [perform_setbuf_of_long hlong]
  | getbuf | reset => exact nofun

/-- Settles O12: a step stands still, or is the oldest pending access, and no access faults. -/
theorem noStepLeavesTheView : Obligations.NoStepLeavesTheView := by
  unfold Obligations.NoStepLeavesTheView
  intro s f
  cases hp : s.pending with
  | nil => simp [step_nil hp]
  | cons e es =>
    rw [step_cons hp]
    exact perform_ne_fault e (s.withPending es) f

/-! ### The placed command word -/

/-- Placing a command's word puts a write of that word to CMD in front of the pending accesses. -/
theorem pending_withFetchWord_encode (s : State) (i : Instr) :
    (s.withFetchWord 8 (encode i).toNat).pending = HostEvent.cmd (encode i) :: s.pending := by
  simp [State.withFetchWord, queueCommandWord]

/-- Placing a word changes the pending accesses alone, so `s` returns when its own are put back. -/
theorem withPending_withFetchWord (s : State) (nbits w : Nat) :
    (s.withFetchWord nbits w).withPending s.pending = s := rfl

/-- Settles O9: the step takes the placed write of CMD off the pending accesses again, and performs its command. -/
theorem placedWordRunsNext : Obligations.PlacedWordRunsNext := by
  unfold Obligations.PlacedWordRunsNext
  intro s i
  rw [step_cons (pending_withFetchWord_encode s i), withPending_withFetchWord, perform_cmd, issueCommand_encode]

end Sys2Proof.Machine

/-! ## Proofs of 30_encoding.md: command words, the access sequence, encodings (R62, R63, R66, R68) and operands -/

namespace Sys2Proof.Machine

/-! ### Command words -/

theorem toNat_encode_mem (i : Instr) :
    (encode i).toNat ∈ [0x00, 0x01, 0x02, 0x03, 0x04, 0x08, 0x09, 0x0A, 0x0B, 0x0C] := by
  cases i <;> decide

/-- Settles O1: a word that is not reserved is the word the encoder writes for some row. -/
theorem commandTableDecodes : Obligations.CommandTableDecodes := by
  unfold Obligations.CommandTableDecodes
  refine ⟨rfl, rfl, rfl, rfl, rfl, rfl, rfl, rfl, rfl, rfl, fun c hc => ?_⟩
  rcases decode_cases c with ⟨-, i, hi⟩ | ⟨-, hreserved⟩
  · obtain rfl := decode_eq_command_iff.1 hi
    exact absurd (toNat_encode_mem i) hc
  · exact hreserved

theorem decodeTableWord_of_decode {c : Byte} {i : Instr} (h : decode c = .command i) :
    decodeTableWord 8 c.toNat = some i := by
  simp [decodeTableWord, c.isLt, h]

/-- Settles O2: the encoder's word is the one word that decodes to the command. -/
theorem decodeOfEncodeIsTheCommand : Obligations.DecodeOfEncodeIsTheCommand := by
  unfold Obligations.DecodeOfEncodeIsTheCommand
  intro i _
  have hdecode : decode (encode i) = .command i := decode_eq_command_iff.2 rfl
  exact ⟨hdecode, decodeTableWord_of_decode hdecode, fun c => decode_eq_command_iff.1⟩

/-- A word decodes to a command exactly when it is legal (30_encoding.md R74). -/
theorem exists_decode_eq_command_iff (c : Byte) : (∃ i, decode c = .command i) ↔ legalWord c = true := by
  rcases decode_cases c with ⟨hlegal, hcommand⟩ | ⟨hillegal, why, hreserved⟩
  · simp [hlegal, hcommand]
  · simp [hillegal, hreserved]

theorem legalWord_iff (c : Byte) :
    legalWord c = true ↔ c.extractLsb' 4 4 = 0 ∧ (c.extractLsb' 0 3).toNat ≤ 4 := by
  simp only [legalWord, Bool.and_eq_true, beq_iff_eq, decide_eq_true_eq]
  rfl

theorem length_filter_legalWord :
    ((List.range 256).filter (fun n => legalWord (BitVec.ofNat 8 n))).length = 10 := by rfl

/-- Settles O3: the two fields decide which words are legal, and the words that are not are the rest of the 256. -/
theorem legalWordsAreExactlyTen : Obligations.LegalWordsAreExactlyTen := by
  unfold Obligations.LegalWordsAreExactlyTen
  refine ⟨fun c => (exists_decode_eq_command_iff c).trans (legalWord_iff c), length_filter_legalWord, ?_⟩
  have hsplit := List.length_eq_length_filter_add (l := List.range 256) (fun n => legalWord (BitVec.ofNat 8 n))
  rw [List.length_range, length_filter_legalWord] at hsplit
  omega

/-! ### Host programs -/

/-- Settles O7: the step laws say both cases of the list. -/
theorem stepPerformsTheOldestAccess : Obligations.StepPerformsTheOldestAccess := by
  unfold Obligations.StepPerformsTheOldestAccess
  exact fun s => ⟨step_nil, fun e es => step_cons⟩

/-- Settles O10, by induction on the accesses: an access takes no notice of those still to come, so the step and the
bare access end alike up to them. -/
theorem stepsRunTheAccessSequence : Obligations.StepsRunTheAccessSequence := by
  unfold Obligations.StepsRunTheAccessSequence
  intro es
  induction es with
  | nil => exact fun s => rfl
  | cons e es ih =>
    intro s
    have hstep : core.step (s.withPending (e :: es)) = withPendingAfter es (perform e s) :=
      (step_cons (s := s.withPending (e :: es)) rfl).trans (perform_withPending e s es)
    have hbare : perform e (s.withPending []) = withPendingAfter [] (perform e s) := perform_withPending e s []
    change core.run (es.length + 1) (s.withPending (e :: es)) = performAll (e :: es) (s.withPending [])
    rw [performAll, hbare]
    cases ho : perform e s with
    | next t =>
      rw [ho] at hstep
      exact (run_of_next core es.length hstep).trans (ih t)
    | fault f =>
      rw [ho] at hstep
      exact run_of_fault core es.length hstep
    | refused r =>
      rw [ho] at hstep
      exact run_of_refused core es.length hstep

/-- Settles O11: each line's accesses are written in `assembleLine`, and a command's word is computed by `encode`. -/
theorem assemblerLinesExpand : Obligations.AssemblerLinesExpand := by
  unfold Obligations.AssemblerLinesExpand
  exact ⟨fun i => rfl, fun c => rfl, fun x => rfl, fun bs => rfl, fun n => rfl, fun n b => rfl, rfl, rfl, rfl, rfl,
    rfl, rfl, rfl, rfl, rfl⟩

/-! ### What both encodings have in common -/

theorem contFlag_getElem_of_selfDelimited {bs : List Byte} (h : selfDelimited bs) {k : Nat} (hk : k < bs.length) :
    contFlag bs[k] = decide (k + 1 < bs.length) := by
  obtain ⟨init, last, rfl, hinit, hlast⟩ := h
  rcases Nat.lt_or_ge k init.length with hlt | hge
  · rw [List.getElem_append_left hlt, hinit _ (List.getElem_mem hlt)]
    simp [hlt]
  · rw [List.getElem_append_right hge]
    simp [hlast, hge]

/-- The size, the bytes and the one terminal byte of an encoding (30_encoding.md R62), the nonzero first group of a
nonzero value (40_standard_codec.md R88, 42_overflow_safe_codec.md R132), and the encoding of 0 (30_encoding.md R66). -/
structure Encoding (size : Word → Nat) (enc : Word → List Byte) : Prop where
  length_eq : ∀ v, (enc v).length = size v
  size_pos : ∀ v, 1 ≤ size v
  size_le_ten : ∀ v, size v ≤ 10
  delimited : ∀ v, selfDelimited (enc v)
  first_group : ∀ v, v ≠ 0 → ∀ h : 0 < (enc v).length, payload (enc v)[0] ≠ 0
  zero_eq : enc 0 = [0x00]

theorem slice_ne_zero_iff (w : Word) (i : Nat) : slice w i ≠ 0 ↔ ¬ 128 ∣ w.toNat / 2 ^ (7 * i) := by
  rw [Nat.dvd_iff_mod_eq_zero, ← slice_toNat, ne_eq, ← BitVec.toNat_inj]
  rfl

/-- The top group of the `size_S` groups is not 0: one group fewer would not hold the value. -/
theorem slice_sizeS_ne_zero {v : Word} (hv : v ≠ 0) : slice v (sizeS v - 1) ≠ 0 := by
  obtain ⟨h1, -, hlt, hmin⟩ := sizeS_spec v
  have hpow : 0 < 2 ^ (7 * (sizeS v - 1)) := Nat.pow_pos (by decide)
  have hle : 2 ^ (7 * (sizeS v - 1)) ≤ v.toNat := by
    rcases hmin with hone | hle
    · rw [hone]; exact BitVec.toNat_pos_of_ne_zero hv
    · exact hle
  have hquot_pos : 0 < v.toNat / 2 ^ (7 * (sizeS v - 1)) := Nat.div_pos hle hpow
  have hquot_lt : v.toNat / 2 ^ (7 * (sizeS v - 1)) < 128 := by
    rw [Nat.div_lt_iff_lt_mul hpow, show 128 = 2 ^ 7 from rfl, ← Nat.pow_add,
      show 7 + 7 * (sizeS v - 1) = 7 * sizeS v by omega]
    exact hlt
  exact (slice_ne_zero_iff v _).2 (Nat.not_dvd_of_pos_of_lt hquot_pos hquot_lt)

/-- The lowest group of the pre-shifted value is not 0: if it were, one left shift fewer would empty the register. -/
theorem slice_preShift_ne_zero {v : Word} (hv : v ≠ 0) (h9 : sizeO v ≤ 9) :
    slice (v >>> (64 - 7 * sizeO v)) 0 ≠ 0 := by
  obtain ⟨h1, -, hdvd, hmin⟩ := sizeO_spec v
  have hmin' : ¬ 2 ^ 64 ∣ v.toNat * 2 ^ (7 * (sizeO v - 1)) := by
    rcases hmin with hone | hndvd
    · rw [hone]
      simpa using Nat.not_dvd_of_pos_of_lt (BitVec.toNat_pos_of_ne_zero hv) v.isLt
    · exact hndvd
  have hshift : (v >>> (64 - 7 * sizeO v)).toNat / 2 ^ (7 * 0) = v.toNat / 2 ^ (64 - 7 * sizeO v) := by
    simp [Nat.shiftRight_eq_div_pow]
  rw [slice_ne_zero_iff, hshift]
  intro hgroup
  have hlow : 2 ^ (64 - 7 * sizeO v) ∣ v.toNat := by
    refine Nat.dvd_of_mul_dvd_mul_right (Nat.pow_pos (n := 7 * sizeO v) (by decide : 0 < 2)) ?_
    rwa [← Nat.pow_add, show 64 - 7 * sizeO v + 7 * sizeO v = 64 by omega]
  have hlow7 : 2 ^ (64 - 7 * sizeO v) * 128 ∣ v.toNat := Nat.mul_dvd_of_dvd_div hlow hgroup
  have hpow : 2 ^ 64 = 2 ^ (64 - 7 * sizeO v) * 128 * 2 ^ (7 * (sizeO v - 1)) := by
    rw [show 128 = 2 ^ 7 from rfl, ← Nat.pow_add, ← Nat.pow_add]
    congr 1
    omega
  exact hmin' (hpow ▸ Nat.mul_dvd_mul_right hlow7 _)

theorem payload_encBytesS_ne_zero {v : Word} (hv : v ≠ 0) (h : 0 < (encBytesS v).length) :
    payload (encBytesS v)[0] ≠ 0 := by
  simp only [encBytesS, getElem_groupsDown, payload_withCont_slice]
  exact slice_sizeS_ne_zero hv

theorem payload_encBytesO_ne_zero {v : Word} (hv : v ≠ 0) (h : 0 < (encBytesO v).length) :
    payload (encBytesO v)[0] ≠ 0 := by
  by_cases hbit : v &&& Config.extraMask ≠ 0
  · simp only [encBytesO, if_pos hbit, List.getElem_cons_zero, extraByte_of_odd ((extraMask_ne_zero_iff v).1 hbit)]
    decide
  · have heven : v.toNat % 2 = 0 := by have := (extraMask_ne_zero_iff v).not.1 hbit; omega
    simp only [encBytesO, if_neg hbit, getElem_groupsUp, payload_withCont_slice]
    exact slice_preShift_ne_zero hv ((sizeO_le_nine_iff v).2 heven)

theorem encoding_standard : Encoding sizeS encBytesS where
  length_eq := length_encBytesS
  size_pos v := (sizeS_spec v).1
  size_le_ten v := (sizeS_spec v).2.1
  delimited := selfDelimited_encBytesS
  first_group _ := payload_encBytesS_ne_zero
  zero_eq := rfl

theorem encoding_overflowSafe : Encoding sizeO encBytesO where
  length_eq := length_encBytesO
  size_pos v := (sizeO_spec v).1
  size_le_ten v := (sizeO_spec v).2.1
  delimited := selfDelimited_encBytesO
  first_group _ := payload_encBytesO_ne_zero
  zero_eq := rfl

/-! ### What an encode writes -/

section
variable {i : Instr} {d : Direction} {size : Word → Nat} {enc : Word → List Byte}

/-- An encode that ends with STATUS 0x00 has fitted: COUNT is the size, and the view holds the bytes at their places. -/
theorem Encodes.written (h : Encodes i d size enc) {s t : State} (hexec : exec i s = .next t)
    (hstatus : t.status = 0x00) : t.count = size s.val ∧
      ∀ k (hk : k < (enc s.val).length), t.buf.memRead (place d t.buf.len k) = some (enc s.val)[k] := by
  rcases Nat.lt_or_ge s.buf.len (size s.val) with hlt | hge
  · cases (h.fails hlt).symm.trans hexec
    exact absurd (show (0x02 : Byte) = 0x00 from hstatus) (by decide)
  · obtain ⟨m, hm, hlen, -, hbytes, -⟩ := h.fits hge
    cases hm.symm.trans hexec
    exact ⟨rfl, fun k hk => by dsimp only; rw [hlen]; exact hbytes k hk⟩

theorem Encodes.oneTerminalByte (h : Encodes i d size enc) (e : Encoding size enc) (s t : State)
    (hexec : exec i s = .next t) (hstatus : t.status = 0x00) :
    t.count = size s.val ∧ 1 ≤ t.count ∧ t.count ≤ 10 ∧
      ∀ k < t.count, ∃ b : Byte, t.buf.memRead (place d t.buf.len k) = some b ∧
        (b.getLsbD 7 = true ↔ k + 1 < t.count) := by
  obtain ⟨hcount, hbytes⟩ := h.written hexec hstatus
  rw [hcount]
  refine ⟨rfl, e.size_pos _, e.size_le_ten _, fun k hk => ?_⟩
  rw [← e.length_eq] at hk ⊢
  have hflag := contFlag_getElem_of_selfDelimited (e.delimited s.val) hk
  exact ⟨_, hbytes k hk, (Bool.eq_iff_iff.1 hflag).trans decide_eq_true_iff⟩

theorem Encodes.firstGroup_ne_zero (h : Encodes i d size enc) (e : Encoding size enc) (s t : State)
    (hexec : exec i s = .next t) (hstatus : t.status = 0x00) (hval : s.val ≠ 0) :
    ∃ b : Byte, t.buf.memRead (place d t.buf.len 0) = some b ∧ b &&& 0x7F ≠ 0 := by
  obtain ⟨-, hbytes⟩ := h.written hexec hstatus
  have hpos : 0 < (enc s.val).length := (e.size_pos s.val).trans_eq (e.length_eq s.val).symm
  exact ⟨_, hbytes 0 hpos, e.first_group s.val hval hpos⟩

theorem Encodes.zero_as_zeroByte (h : Encodes i d size enc) (e : Encoding size enc) (s : State) (hval : s.val = 0)
    (hlen : 1 ≤ s.buf.len) :
    ∃ m, exec i s = .next { s with buf := m, count := 1, status := 0x00 } ∧
      m.memRead (place d s.buf.len 0) = some 0x00 ∧
      ∀ j, j ≠ place d s.buf.len 0 → m.memRead j = s.buf.memRead j := by
  have henc : enc s.val = [0x00] := hval ▸ e.zero_eq
  have hsize : size s.val = 1 := by rw [← e.length_eq, henc]; rfl
  obtain ⟨m, hm, -, -, hbytes, hother⟩ := h.fits (s := s) (by omega)
  simp only [henc, hsize] at hm hbytes hother
  exact ⟨m, hm, hbytes 0 (by decide), fun j hj => hother j (by simpa using hj)⟩

end

/-- Settles O24: each of the four encodes writes a self-delimited encoding. -/
theorem writtenEncodingsHaveOneTerminalByte : Obligations.WrittenEncodingsHaveOneTerminalByte := by
  unfold Obligations.WrittenEncodingsHaveOneTerminalByte
  simp only [List.mem_cons, List.not_mem_nil, or_false, forall_eq_or_imp, forall_eq]
  exact ⟨encodes_encS.oneTerminalByte encoding_standard, encodes_encrS.oneTerminalByte encoding_standard,
    encodes_encO.oneTerminalByte encoding_overflowSafe, encodes_encrO.oneTerminalByte encoding_overflowSafe⟩

/-- Settles O25: 0 has the encoding 0x00 in both variants. -/
theorem zeroEncodesAsOneZeroByte : Obligations.ZeroEncodesAsOneZeroByte := by
  unfold Obligations.ZeroEncodesAsOneZeroByte
  simp only [List.mem_cons, List.not_mem_nil, or_false, forall_eq_or_imp, forall_eq]
  exact ⟨encodes_encS.zero_as_zeroByte encoding_standard, encodes_encrS.zero_as_zeroByte encoding_standard,
    encodes_encO.zero_as_zeroByte encoding_overflowSafe, encodes_encrO.zero_as_zeroByte encoding_overflowSafe⟩

/-- Settles O26: the sizes are minimal, so the first group of a nonzero value is not 0. -/
theorem noEncodingBeginsWithAZeroGroup : Obligations.NoEncodingBeginsWithAZeroGroup := by
  unfold Obligations.NoEncodingBeginsWithAZeroGroup
  simp only [List.mem_cons, List.not_mem_nil, or_false, forall_eq_or_imp, forall_eq]
  exact ⟨encodes_encS.firstGroup_ne_zero encoding_standard, encodes_encrS.firstGroup_ne_zero encoding_standard,
    encodes_encO.firstGroup_ne_zero encoding_overflowSafe, encodes_encrO.firstGroup_ne_zero encoding_overflowSafe⟩

/-! ### What a decode reads -/

/-- What a decode command `i` of that direction and accumulator step does, `unfinished` being its STATUS where no byte
is terminal. -/
def Decodes (i : Instr) (d : Direction) (upd : Word → Byte → Word) (unfinished : Byte) : Prop :=
  ∀ s : State, exec i s = .next { s with
    val := (consume upd (s.buf.inOrder d) s.val).acc
    count := (consume upd (s.buf.inOrder d) s.val).consumed
    status := if (consume upd (s.buf.inOrder d) s.val).terminal then 0x01 else unfinished }

theorem decodes_decS : Decodes .decS .forward updS 0x00 := exec_decS
theorem decodes_decO : Decodes .decO .forward updO 0x00 := exec_decO
theorem decodes_decrS : Decodes .decrS .reversed updS 0x02 := exec_decrS
theorem decodes_decrO : Decodes .decrO .reversed updO 0x02 := exec_decrO

/-- A view long enough that agrees with `m` up to its first terminal byte has the same first terminal byte. -/
theorem Memory.FirstTerminal.of_agree {m m' : Memory} {d : Direction} {t : Nat} (h : m.FirstTerminal d t)
    (hlen : t < m'.len) (hagree : ∀ k ≤ t, m'.nth d k = m.nth d k) : m'.FirstTerminal d t := by
  obtain ⟨-, hcont, hterm⟩ := h
  refine ⟨hlen, fun k hk => ?_, ?_⟩
  · rw [hagree k hk.le]; exact hcont k hk
  · rw [hagree t le_rfl]; exact hterm

/-- A scan does not depend on the bytes after the first terminal one. -/
theorem consume_congr_of_agree (upd : Word → Byte → Word) {m m' : Memory} {d : Direction} {t : Nat}
    (h : m.FirstTerminal d t) (hlen : t < m'.len) (hagree : ∀ k ≤ t, m'.nth d k = m.nth d k) (a : Word) :
    consume upd (m'.inOrder d) a = consume upd (m.inOrder d) a := by
  have hread : (List.range (t + 1)).map (m'.nth d) = (List.range (t + 1)).map (m.nth d) :=
    List.map_congr_left (fun k hk => hagree k (Nat.lt_succ_iff.1 (List.mem_range.1 hk)))
  rw [consume_firstTerminal h, consume_firstTerminal (h.of_agree hlen hagree), hread]

section
variable {i : Instr} {d : Direction} {upd : Word → Byte → Word} {unfinished : Byte}

theorem Decodes.readsUpToTerminal (h : Decodes i d upd unfinished) (s s' : State) (t : Nat)
    (hterm : s.buf.FirstTerminal d t) (hval : s'.val = s.val) (hlen : t < s'.buf.len)
    (hagree : ∀ k ≤ t, s'.buf.nth d k = s.buf.nth d k) :
    ∃ u u', exec i s = .next u ∧ exec i s' = .next u' ∧
      u'.val = u.val ∧ u'.count = u.count ∧ u'.status = u.status ∧ u'.buf = s'.buf := by
  have hscan : consume upd (s'.buf.inOrder d) s'.val = consume upd (s.buf.inOrder d) s.val := by
    rw [hval]; exact consume_congr_of_agree upd hterm hlen hagree s.val
  exact ⟨_, _, h s, h s', congrArg Scan.acc hscan, congrArg Scan.consumed hscan,
    congrArg (fun r : Scan => if r.terminal then 0x01 else unfinished) hscan, rfl⟩

theorem Decodes.leadingExtension (h : Decodes i d upd unfinished) (hupd : upd 0 0x80 = 0) {p : Nat} {s s' : State}
    (hval : s.val = 0) (hval' : s'.val = 0)
    (hbytes : s'.buf.inOrder d = List.replicate p 0x80 ++ s.buf.inOrder d) :
    ∃ u u', exec i s = .next u ∧ exec i s' = .next u' ∧
      u'.val = u.val ∧ u'.count = u.count + p ∧ u'.status = u.status := by
  have hscan : consume upd (s'.buf.inOrder d) s'.val = { consume upd (s.buf.inOrder d) s.val with
      consumed := (consume upd (s.buf.inOrder d) s.val).consumed + p } := by
    rw [hbytes, hval, hval']; exact consume_extension hupd p _
  exact ⟨_, _, h s, h s', by simp only [hscan], by simp only [hscan], by simp only [hscan]⟩

end

/-- Settles O31: the scan of each decode ends at the first terminal byte. -/
theorem bytesAfterTheTerminalAreNotRead : Obligations.BytesAfterTheTerminalAreNotRead := by
  unfold Obligations.BytesAfterTheTerminalAreNotRead
  simp only [List.mem_cons, List.not_mem_nil, or_false, forall_eq_or_imp, forall_eq]
  exact ⟨decodes_decS.readsUpToTerminal, decodes_decO.readsUpToTerminal, decodes_decrS.readsUpToTerminal,
    decodes_decrO.readsUpToTerminal⟩

/-- Settles O32: 0x80 has the continuation flag set and the group 0, which both accumulators take from 0 to 0. -/
theorem leadingExtensionBytesAreHarmless : Obligations.LeadingExtensionBytesAreHarmless := by
  unfold Obligations.LeadingExtensionBytesAreHarmless
  intro p s s' hval hval'
  have hS : updS 0 0x80 = 0 := rfl
  have hO : updO 0 0x80 = 0 := rfl
  simp only [List.mem_cons, List.not_mem_nil, or_false, forall_eq_or_imp, forall_eq]
  constructor
  · intro hbytes
    have horder : s'.buf.inOrder .forward = List.replicate p 0x80 ++ s.buf.inOrder .forward := by
      simp only [Memory.inOrder_forward, hbytes]
    exact ⟨decodes_decS.leadingExtension hS hval hval' horder, decodes_decO.leadingExtension hO hval hval' horder⟩
  · intro hbytes
    have horder : s'.buf.inOrder .reversed = List.replicate p 0x80 ++ s.buf.inOrder .reversed := by
      simp only [Memory.inOrder_reversed, hbytes, List.reverse_append, List.reverse_replicate]
    exact ⟨decodes_decrS.leadingExtension hS hval hval' horder, decodes_decrO.leadingExtension hO hval hval' horder⟩

/-! ### What each command writes -/

/-- Settles O39: a command's effect is on VAL, COUNT, STATUS and the view, of which only a decode writes VAL and only
an encode writes the view. -/
theorem commandsWriteOnlyTheirOperands : Obligations.CommandsWriteOnlyTheirOperands := by
  unfold Obligations.CommandsWriteOnlyTheirOperands
  intro i s t h
  have heffect := commandEffect_of_exec h
  have hkeepsVal : i ∉ [Instr.decS, .decO, .decrS, .decrO] → t.val = s.val :=
    (exec_val_eq_or_decode h).resolve_right
  have hkeepsBuf : i ∉ [Instr.encS, .encO, .encrS, .encrO] → t.buf = s.buf :=
    (exec_buf_eq_or_encode h).resolve_right
  have hsizes : ∀ j ∈ [Instr.sizeS, .sizeO],
      j ∉ [Instr.decS, .decO, .decrS, .decrO] ∧ j ∉ [Instr.encS, .encO, .encrS, .encrO] := by decide
  have hencodes : ∀ j ∈ [Instr.encS, .encO, .encrS, .encrO], j ∉ [Instr.decS, .decO, .decrS, .decrO] := by decide
  refine ⟨heffect.len, by rw [heffect.eq], by rw [heffect.eq], by rw [heffect.eq], fun hsize => ?_, fun henc => ?_,
    fun hdec => ?_⟩
  · obtain ⟨hnotDecode, hnotEncode⟩ := hsizes i hsize
    exact ⟨hkeepsVal hnotDecode, hkeepsBuf hnotEncode⟩
  · exact hkeepsVal (hencodes i henc)
  · exact hkeepsBuf (fun henc => hencodes i henc hdec)

end Sys2Proof.Machine

/-! ## Proofs of 40_standard_codec.md: the standard codec (R80, R83 to R86), and what it shares with the overflow-safe
one: progressive decoding (R87) and ten groups or more (R89) -/

namespace Sys2Proof.Machine

/-! ### Sizes and encodes -/

/-- `n` groups hold a value exactly when its bit length is at most `7n`, and `size_S` is the least such `n` from 1 on. -/
theorem sizeS_eq_max_ceil (v : Word) : sizeS v = max 1 ((Nat.size v.toNat + 6) / 7) := by
  obtain ⟨hpos, -, hholds, hleast⟩ := sizeS_spec v
  have hupper : Nat.size v.toNat ≤ 7 * sizeS v := Nat.size_le.2 hholds
  rcases hleast with hone | hlower
  · omega
  · have hlower : 7 * (sizeS v - 1) < Nat.size v.toNat := Nat.lt_size.2 hlower
    omega

/-- Settles O18, from the closed form of `size_S`. -/
theorem sizeSIsTheCeilingOfBitlength : Obligations.SizeSIsTheCeilingOfBitlength := by
  unfold Obligations.SizeSIsTheCeilingOfBitlength
  refine ⟨rfl, fun s => ?_⟩
  rw [exec_sizeS, sizeS_eq_max_ceil]

/-- Settles O20: an index below the size holds a byte of the encoding, and every other one is not written. -/
theorem encSWritesOrReportsCapacity : Obligations.EncSWritesOrReportsCapacity := by
  unfold Obligations.EncSWritesOrReportsCapacity
  refine ⟨rfl, fun s => ⟨fun hfits => ?_, encodes_encS.fails⟩⟩
  obtain ⟨m, hexec, hlen, -, hbytes, hothers⟩ := encodes_encS.fits hfits
  refine ⟨m, hexec, hlen, fun i => ?_⟩
  split
  · next hi =>
    have hi' : i < (encBytesS s.val).length := by rwa [length_encBytesS]
    rw [← getElem_encBytesS hi']
    exact hbytes i hi'
  · next hi =>
    refine hothers i (fun j hj hij => hi ?_)
    rw [length_encBytesS] at hj
    exact hij ▸ hj

/-! ### Decodes by where the terminal byte is -/

section
variable {i : Instr} {d : Direction} {upd : Word → Byte → Word} {unfinished : Byte}

theorem Decodes.of_firstTerminal (h : Decodes i d upd unfinished) {s : State} {t : Nat}
    (hterm : s.buf.FirstTerminal d t) : exec i s = .next { s with
      val := ((List.range (t + 1)).map (s.buf.nth d)).foldl upd s.val, count := t + 1, status := 0x01 } := by
  rw [h s, consume_firstTerminal hterm]
  rfl

theorem Decodes.of_noTerminal (h : Decodes i d upd unfinished) {s : State} (hnone : s.buf.NoTerminal d) :
    exec i s = .next { s with
      val := ((List.range s.buf.len).map (s.buf.nth d)).foldl upd s.val, count := s.buf.len, status := unfinished } := by
  rw [h s, consume_noTerminal hnone]
  rfl

/-- A view that begins, in reading order, with a self-delimited sequence: that sequence is decoded. -/
theorem Decodes.of_selfDelimited (h : Decodes i d upd unfinished) {s : State} {bs rest : List Byte}
    (hbs : selfDelimited bs) (horder : s.buf.inOrder d = bs ++ rest) :
    exec i s = .next { s with val := bs.foldl upd s.val, count := bs.length, status := 0x01 } := by
  rw [h s, horder, consume_selfDelimited hbs]
  rfl

end

/-- Settles O27: the bytes are accumulated in R85's closed form. -/
theorem decSAccumulatesUpToTheTerminalByte : Obligations.DecSAccumulatesUpToTheTerminalByte := by
  unfold Obligations.DecSAccumulatesUpToTheTerminalByte
  refine ⟨rfl, fun s => ⟨fun t hterm => ?_, fun hnone => ?_⟩⟩
  · rw [decodes_decS.of_firstTerminal hterm, foldl_updS_nth]
  · rw [decodes_decS.of_noTerminal hnone, foldl_updS_nth]

/-! ### Ten groups or more -/

theorem two_pow_64_dvd_of_ten_le {n : Nat} (h : 10 ≤ n) : 2 ^ 64 ∣ 128 ^ n :=
  (by decide : 2 ^ 64 ∣ 128 ^ 10).trans (Nat.pow_dvd_pow 128 h)

/-- Ten groups or more shift every bit of the start out at the top. -/
theorem foldl_updS_of_ten_le {bs : List Byte} (h : 10 ≤ bs.length) (a b : Word) :
    bs.foldl updS a = bs.foldl updS b := by
  have hout : ∀ c : Word, (bs.foldl updS c).toNat = groupsBigEndian bs % 2 ^ 64 := fun c => by
    obtain ⟨q, hq⟩ := two_pow_64_dvd_of_ten_le h
    rw [foldl_updS_toNat, hq, Nat.mul_left_comm, Nat.mul_add_mod]
  exact BitVec.eq_of_toNat_eq ((hout a).trans (hout b).symm)

/-- Ten groups or more shift every bit of the start out at the bottom. -/
theorem foldl_updO_of_ten_le {bs : List Byte} (h : 10 ≤ bs.length) (a b : Word) :
    bs.foldl updO a = bs.foldl updO b := by
  obtain ⟨q, hq⟩ := two_pow_64_dvd_of_ten_le h
  have hout : ∀ c : Word, (bs.foldl updO c).toNat = groupsLittleEndian bs / q := fun c => by
    rw [foldl_updO_toNat, hq, ← Nat.div_div_eq_div_mul, Nat.add_mul_div_left _ _ (by decide), Nat.div_eq_of_lt c.isLt,
      Nat.zero_add]
  exact BitVec.eq_of_toNat_eq ((hout a).trans (hout b).symm)

theorem Decodes.replacesAccumulator {i : Instr} {d : Direction} {upd : Word → Byte → Word} {unfinished : Byte}
    (h : Decodes i d upd unfinished)
    (hupd : ∀ {bs : List Byte}, 10 ≤ bs.length → ∀ a b : Word, bs.foldl upd a = bs.foldl upd b)
    (s : State) (v : Word) (t : Nat) (hterm : s.buf.FirstTerminal d t) (ht : 9 ≤ t) :
    ∃ u u', exec i s = .next u ∧ exec i { s with val := v } = .next u' ∧ u' = u := by
  refine ⟨_, _, h.of_firstTerminal hterm, h.of_firstTerminal (s := { s with val := v }) hterm, ?_⟩
  have hten : 10 ≤ ((List.range (t + 1)).map (s.buf.nth d)).length := by simpa using ht
  rw [hupd hten v s.val]

/-- Settles O33: the first terminal byte being the tenth or later, ten groups or more are accumulated. -/
theorem tenGroupsReplaceTheAccumulator : Obligations.TenGroupsReplaceTheAccumulator := by
  unfold Obligations.TenGroupsReplaceTheAccumulator
  simp only [List.mem_cons, List.not_mem_nil, or_false, forall_eq_or_imp, forall_eq]
  exact ⟨decodes_decS.replacesAccumulator foldl_updS_of_ten_le, decodes_decO.replacesAccumulator foldl_updO_of_ten_le,
    decodes_decrS.replacesAccumulator foldl_updS_of_ten_le, decodes_decrO.replacesAccumulator foldl_updO_of_ten_le⟩

/-! ### Round trips -/

theorem performAll_cons_of_next {e : HostEvent} {s t : State} (h : perform e s = .next t) (es : List HostEvent) :
    performAll (e :: es) s = performAll es t := by
  rw [performAll, h]

/-- The next access writes a command's word to CMD. -/
theorem performAll_cmd_of_exec {i : Instr} {s t : State} (h : exec i s = .next t) (es : List HostEvent) :
    performAll (HostEvent.cmd (encode i) :: es) s = performAll es t :=
  performAll_cons_of_next ((perform_cmd _ s).trans ((issueCommand_encode i s).trans h)) es

/-- A view whose first bytes in reading order are `bs`. -/
theorem Memory.inOrder_eq_append {m : Memory} {d : Direction} {bs : List Byte} (hlen : bs.length ≤ m.len)
    (h : ∀ j (hj : j < bs.length), m.memRead (place d m.len j) = some bs[j]) :
    m.inOrder d = bs ++ (m.inOrder d).drop bs.length := by
  have htake : (m.inOrder d).take bs.length = bs := by
    apply List.ext_getElem?
    intro j
    by_cases hj : j < bs.length
    · rw [List.getElem?_take_of_lt hj, m.getElem?_inOrder d (hj.trans_le hlen), h j hj, List.getElem?_eq_getElem hj]
    · rw [List.getElem?_take_eq_none (Nat.le_of_not_lt hj), List.getElem?_eq_none (Nat.le_of_not_lt hj)]
  conv_lhs => rw [← List.take_append_drop bs.length (m.inOrder d), htake]

/-- The round trip of an encode `ie` and a decode `id` of one direction: after the encode the view begins, in reading
order, with the self-delimited encoding of `v`, which accumulates from 0 to `v`. -/
theorem Encodes.roundTrip {ie id : Instr} {d : Direction} {size : Word → Nat} {enc : Word → List Byte}
    {upd : Word → Byte → Word} {unfinished : Byte} (he : Encodes ie d size enc) (e : Encoding size enc)
    (hd : Decodes id d upd unfinished) (hacc : ∀ v, (enc v).foldl upd 0 = v) (v : Word) (s : State)
    (hfits : size v ≤ s.buf.len) :
    ∃ m, performAll [HostEvent.wrval v, HostEvent.cmd (encode ie), HostEvent.wrval 0, HostEvent.cmd (encode id)] s =
      .next { s with val := v, count := size v, status := 0x01, buf := m } ∧ m.len = s.buf.len := by
  obtain ⟨m, henc, hlen, -, hbytes, -⟩ := he.fits (s := { s with val := v }) hfits
  dsimp only at henc hlen hbytes
  have hsize : (enc v).length ≤ m.len := by rw [hlen, e.length_eq]; exact hfits
  have horder : m.inOrder d = enc v ++ (m.inOrder d).drop (enc v).length :=
    Memory.inOrder_eq_append hsize (fun j hj => by rw [hlen]; exact hbytes j hj)
  have hdec := hd.of_selfDelimited (s := { s with val := 0, count := size v, status := 0x00, buf := m })
    (e.delimited v) horder
  dsimp only at hdec
  rw [hacc, e.length_eq] at hdec
  refine ⟨m, ?_, hlen⟩
  rw [performAll_cons_of_next (perform_wrval v s), performAll_cmd_of_exec henc,
    performAll_cons_of_next (perform_wrval 0 _), performAll_cmd_of_exec hdec]
  rfl

/-- Settles O34: accumulating the standard encoding of a value from 0 gives the value back. -/
theorem standardForwardRoundTrip : Obligations.StandardForwardRoundTrip := by
  unfold Obligations.StandardForwardRoundTrip
  exact encodes_encS.roundTrip encoding_standard decodes_decS foldl_updS_encBytesS

/-! ### Progressive decoding -/

/-- Where a self-delimited sequence is cut before its end, the bytes before the cut all have the continuation flag set
and those after it are self-delimited. -/
theorem selfDelimited_append {xs ys : List Byte} (h : selfDelimited (xs ++ ys)) (hne : ys ≠ []) :
    (∀ b ∈ xs, contFlag b = true) ∧ selfDelimited ys := by
  obtain ⟨init, last, heq, hinit, hlast⟩ := h
  obtain ⟨zs, z, rfl⟩ := List.eq_nil_or_concat' ys |>.resolve_left hne
  rw [← List.append_assoc] at heq
  obtain ⟨rfl, hz⟩ := List.append_inj' heq rfl
  obtain rfl : z = last := by simpa using hz
  exact ⟨fun b hb => hinit b (List.mem_append_left _ hb),
    zs, z, rfl, fun b hb => hinit b (List.mem_append_right _ hb), hlast⟩

theorem flatten_ne_nil_of_getLast? {pieces : List (List Byte)} (hne : pieces ≠ [])
    (hlast : pieces.getLast? ≠ some []) : pieces.flatten ≠ [] := by
  rw [List.getLast?_eq_some_getLast hne] at hlast
  exact fun h => hlast (congrArg some (List.flatten_eq_nil_iff.1 h _ (List.getLast_mem hne)))

section
variable {i : Instr} {upd : Word → Byte → Word}

/-- Attaching bytes and decoding them scans those bytes. -/
theorem Decodes.attached (h : Decodes i .forward upd 0x00) {bs : List Byte} (hfits : bs.length < 2 ^ Config.lenW)
    (s : State) : performAll [.setbuf bs, HostEvent.cmd (encode i)] s = .next { s with
      val := (consume upd bs s.val).acc
      count := (consume upd bs s.val).consumed
      status := if (consume upd bs s.val).terminal then 0x01 else 0x00
      buf := Memory.ofBytes bs } := by
  rw [performAll_cons_of_next (perform_setbuf_of_fits hfits s), performAll_cmd_of_exec (h _), Memory.inOrder_forward,
    Memory.toBytes_ofBytes]
  rfl

theorem deliver_cons_of_next {p : List Byte} {s t : State}
    (h : performAll [.setbuf p, HostEvent.cmd (encode i)] s = .next t) (ps : List (List Byte)) :
    deliver i (p :: ps) s = (deliver i ps t).map (t :: ·) := by
  rw [deliver, h]

/-- Delivering pieces from any VAL accumulates all their bytes: a piece before the last has no terminal byte, so its
decode is incomplete and the next goes on from the VAL it left. -/
theorem Decodes.delivered (h : Decodes i .forward upd 0x00) {pieces : List (List Byte)} {s : State}
    (hlast : pieces.getLast? ≠ some []) (hbs : selfDelimited pieces.flatten)
    (hfits : pieces.flatten.length < 2 ^ Config.lenW) :
    ∃ ts, deliver i pieces s = some ts ∧ ts.getLast?.map State.val = some (pieces.flatten.foldl upd s.val) ∧
      (ts.map State.count).sum = pieces.flatten.length ∧
      ts.map State.status = List.replicate (pieces.length - 1) 0x00 ++ [0x01] := by
  induction pieces generalizing s with
  | nil =>
    obtain ⟨init, last, hnil, -, -⟩ := hbs
    exact absurd hnil (by simp)
  | cons p ps ih =>
    rw [List.flatten_cons, List.length_append] at hfits
    have hp := h.attached (bs := p) (by omega) s
    cases ps with
    | nil =>
      rw [List.flatten_singleton] at hbs
      have hscan := consume_selfDelimited (upd := upd) hbs [] s.val
      rw [List.append_nil] at hscan
      rw [hscan] at hp
      exact ⟨_, deliver_cons_of_next hp [], by simp⟩
    | cons q qs =>
      have hne : (q :: qs).flatten ≠ [] := flatten_ne_nil_of_getLast? (by simp) (by simpa using hlast)
      obtain ⟨hcont, hrest⟩ := selfDelimited_append hbs hne
      rw [consume_all hcont] at hp
      obtain ⟨ts, hts, hval, hcount, hstatus⟩ := ih (by simpa using hlast) hrest (by omega)
      refine ⟨_, (deliver_cons_of_next hp _).trans (congrArg _ hts), ?_, ?_, ?_⟩
      · have hnil : ts ≠ [] := fun h0 => by simp [h0] at hval
        rw [List.getLast?_cons_of_ne_nil hnil, hval]
        simp only [List.flatten_cons, List.foldl_append]
      · simp [hcount]
      · simp [hstatus, List.replicate_succ]

/-- The pieces and the whole, each from VAL 0. -/
theorem Decodes.progressive (h : Decodes i .forward upd 0x00) (pieces : List (List Byte)) (rest : List Byte) (s : State)
    (hlast : pieces.getLast? ≠ some []) (hbs : selfDelimited pieces.flatten)
    (hfits : (pieces.flatten ++ rest).length < 2 ^ Config.lenW) :
    ∃ ts w, deliver i pieces { s with val := 0 } = some ts ∧
      performAll [.setbuf (pieces.flatten ++ rest), HostEvent.cmd (encode i)] { s with val := 0 } = .next w ∧
      ts.getLast?.map State.val = some w.val ∧
      (ts.map State.count).sum = pieces.flatten.length ∧ w.count = pieces.flatten.length ∧
      ts.map State.status = List.replicate (pieces.length - 1) 0x00 ++ [0x01] := by
  have hwhole := h.attached hfits { s with val := 0 }
  rw [consume_selfDelimited hbs rest] at hwhole
  obtain ⟨ts, hts, hval, hcount, hstatus⟩ := h.delivered (s := { s with val := 0 }) hlast hbs
    (by rw [List.length_append] at hfits; omega)
  exact ⟨ts, _, hts, hwhole, hval, hcount, rfl, hstatus⟩

end

/-- Settles O37: delivered or whole, the same bytes are accumulated from 0. -/
theorem progressiveDecodeEqualsWhole : Obligations.ProgressiveDecodeEqualsWhole := by
  unfold Obligations.ProgressiveDecodeEqualsWhole
  simp only [List.mem_cons, List.not_mem_nil, or_false, forall_eq_or_imp, forall_eq]
  exact ⟨decodes_decS.progressive, decodes_decO.progressive⟩

end Sys2Proof.Machine

/-! ## Proofs of 41_standard_reversed.md: the standard codec from the tail of the view (R100, R101, R103), and the
agreement of both variants' reversed commands with the forward ones (R104, 30_encoding.md R65) -/

namespace Sys2Proof.Machine

/-! ### Reversed encodes -/

/-- A reversed encode that fits: byte `k` of the encoding stands at `LEN - 1 - k`, so the last `size` indices hold the
encoding downward and every other one is not written. -/
theorem Encodes.reversed_fits {i : Instr} {size : Word → Nat} {enc : Word → List Byte} {layout : Word → Nat → Nat → Byte}
    (h : Encodes i .reversed size enc) (e : Encoding size enc)
    (hlayout : ∀ {v k} (hk : k < (enc v).length), (enc v)[k] = layout v (size v) k) {s : State}
    (hfits : size s.val ≤ s.buf.len) :
    ∃ m, exec i s = .next { s with buf := m, count := size s.val, status := 0x00 } ∧ m.len = s.buf.len ∧
      ∀ j, m.memRead j =
        if s.buf.len - size s.val ≤ j ∧ j < s.buf.len then some (layout s.val (size s.val) (s.buf.len - 1 - j))
        else s.buf.memRead j := by
  obtain ⟨m, hexec, hlen, -, hbytes, hothers⟩ := h.fits hfits
  refine ⟨m, hexec, hlen, fun j => ?_⟩
  split
  · next hj =>
    have hk : s.buf.len - 1 - j < (enc s.val).length := by rw [e.length_eq]; omega
    have hplace : place .reversed s.buf.len (s.buf.len - 1 - j) = j := by simp only [place]; omega
    rw [← hlayout hk, ← hbytes _ hk, hplace]
  · next hj =>
    refine hothers j (fun k hk hjk => hj ?_)
    rw [e.length_eq] at hk
    simp only [place] at hjk
    omega

/-- Settles O21: the bytes of `ENC.S` at the places of the reversed direction. -/
theorem encrSWritesOrReportsCapacity : Obligations.EncrSWritesOrReportsCapacity := by
  unfold Obligations.EncrSWritesOrReportsCapacity
  exact ⟨rfl, fun s => ⟨encodes_encrS.reversed_fits encoding_standard getElem_encBytesS, encodes_encrS.fails⟩⟩

/-! ### Reversed decodes -/

/-- Settles O28: the bytes read downward are accumulated in R85's closed form. -/
theorem decrSAccumulatesDownToTheTerminalByte : Obligations.DecrSAccumulatesDownToTheTerminalByte := by
  unfold Obligations.DecrSAccumulatesDownToTheTerminalByte
  refine ⟨rfl, fun s => ⟨fun t hterm => ?_, fun hnone => ?_⟩⟩
  · rw [decodes_decrS.of_firstTerminal hterm, foldl_updS_nth]
  · rw [decodes_decrS.of_noTerminal hnone, foldl_updS_nth]

/-! ### Round trip -/

/-- Settles O35: the reversed encode and decode take the bytes in one order, and accumulating the standard encoding of
a value from 0 gives the value back. -/
theorem standardReversedRoundTrip : Obligations.StandardReversedRoundTrip := by
  unfold Obligations.StandardReversedRoundTrip
  exact encodes_encrS.roundTrip encoding_standard decodes_decrS foldl_updS_encBytesS

/-! ### Agreement with the forward commands -/

/-- A view read downward is its mirror image read upward. -/
theorem Memory.inOrder_reversed_of_mirror {m m' : Memory} (h : m'.toBytes = m.toBytes.reverse) :
    m.inOrder .reversed = m'.inOrder .forward := by
  rw [Memory.inOrder_reversed, Memory.inOrder_forward, h]

/-- The two decodes scan the same bytes from the same VAL; their STATUS differs only where no byte is terminal. -/
theorem Decodes.reversed_agrees {ir id : Instr} {upd : Word → Byte → Word} {ur ud : Byte}
    (hr : Decodes ir .reversed upd ur) (hf : Decodes id .forward upd ud) (s s' : State) (t : Nat) (hval : s'.val = s.val)
    (hmirror : s'.buf.toBytes = s.buf.toBytes.reverse) (hterm : s'.buf.FirstTerminal .forward t) :
    ∃ u u', exec ir s = .next u ∧ exec id s' = .next u' ∧ u.val = u'.val ∧ u.count = u'.count ∧
      u.status = 0x01 ∧ u'.status = 0x01 := by
  have hscan : consume upd (s.buf.inOrder .reversed) s.val = consume upd (s'.buf.inOrder .forward) s'.val := by
    rw [Memory.inOrder_reversed_of_mirror hmirror, hval]
  have hterminal : (consume upd (s'.buf.inOrder .forward) s'.val).terminal = true := by
    rw [consume_firstTerminal hterm]
  exact ⟨_, _, hr s, hf s', congrArg Scan.acc hscan, congrArg Scan.consumed hscan,
    if_pos ((congrArg Scan.terminal hscan).trans hterminal), if_pos hterminal⟩

/-- Two encodes of one size and one byte sequence put byte `k` each at its own direction's place for `k`. -/
theorem Encodes.reversed_agrees {ir id : Instr} {size : Word → Nat} {enc : Word → List Byte}
    (hr : Encodes ir .reversed size enc) (hf : Encodes id .forward size enc) (e : Encoding size enc) (s : State)
    (hfits : size s.val ≤ s.buf.len) :
    ∃ u u', exec ir s = .next u ∧ exec id s = .next u' ∧
      ∀ k < size s.val, u.buf.memRead (s.buf.len - 1 - k) = u'.buf.memRead k := by
  obtain ⟨m, hm, -, -, hdown, -⟩ := hr.fits hfits
  obtain ⟨m', hm', -, -, hup, -⟩ := hf.fits hfits
  refine ⟨_, _, hm, hm', fun k hk => ?_⟩
  rw [← e.length_eq] at hk
  exact (hdown k hk).trans (hup k hk).symm

/-- Settles O38: reversed and forward commands of a variant differ in the reading order alone. -/
theorem reversedAgreesWithForward : Obligations.ReversedAgreesWithForward := by
  unfold Obligations.ReversedAgreesWithForward
  simp only [List.mem_cons, List.not_mem_nil, or_false, forall_eq_or_imp, forall_eq]
  exact ⟨⟨decodes_decrS.reversed_agrees decodes_decS, decodes_decrO.reversed_agrees decodes_decO⟩,
    encodes_encrS.reversed_agrees encodes_encS encoding_standard,
    encodes_encrO.reversed_agrees encodes_encO encoding_overflowSafe⟩

end Sys2Proof.Machine

/-! ## Proofs of 42_overflow_safe_codec.md: the overflow-safe codec, forward and reversed (R124, R126 to R131) -/

namespace Sys2Proof.Machine

/-! ### Round trips -/

/-- Settles O36: in either direction the encode and decode take the bytes in one order, and accumulating the
overflow-safe encoding of a value from 0 gives the value back. -/
theorem overflowSafeRoundTrips : Obligations.OverflowSafeRoundTrips := by
  unfold Obligations.OverflowSafeRoundTrips
  exact fun v s hfits =>
    ⟨encodes_encO.roundTrip encoding_overflowSafe decodes_decO foldl_updO_encBytesO v s hfits,
      encodes_encrO.roundTrip encoding_overflowSafe decodes_decrO foldl_updO_encBytesO v s hfits⟩

/-! ### Size -/

/-- An odd factor holds no power of two, so only the exponents count. -/
theorem two_pow_dvd_odd_mul_iff (k p q j : Nat) : 2 ^ k ∣ 2 ^ p * (2 * q + 1) * 2 ^ j ↔ k ≤ p + j := by
  have hodd : (2 ^ k).Coprime (2 * q + 1) := (Nat.coprime_two_left.2 (odd_two_mul_add_one q)).pow_left k
  rw [Nat.mul_right_comm, ← Nat.pow_add, hodd.dvd_mul_right, Nat.pow_dvd_pow_iff_le_right (by decide)]

/-- `n` left shifts by 7 empty the register exactly when `7n` reaches from the lowest set bit past bit 63, and `size_O`
is the least such `n` from 1 on. -/
theorem sizeO_eq_ceil {v : Word} {p q : Nat} (hv : v.toNat = 2 ^ p * (2 * q + 1)) : sizeO v = (64 - p + 6) / 7 := by
  obtain ⟨hpos, -, hempties, hleast⟩ := sizeO_spec v
  have hp : p < 64 := by
    refine (Nat.pow_lt_pow_iff_right (by decide : 1 < 2)).1 (lt_of_le_of_lt ?_ v.isLt)
    rw [hv]
    exact Nat.le_mul_of_pos_right _ (by omega)
  rw [hv, two_pow_dvd_odd_mul_iff] at hempties hleast
  omega

theorem sizeO_eq_ten_iff (v : Word) : sizeO v = 10 ↔ v.getLsbD 0 = true := by
  have hle := (sizeO_spec v).2.1
  have hnine := sizeO_le_nine_iff v
  rw [getLsbD_zero_iff, extraMask_ne_zero_iff]
  omega

/-- Settles O19, from the closed form of `size_O` by the lowest set bit. -/
theorem sizeOFollowsTheLowestSetBit : Obligations.SizeOFollowsTheLowestSetBit := by
  unfold Obligations.SizeOFollowsTheLowestSetBit
  refine ⟨rfl, fun s => ⟨fun hzero => ?_, fun p q hval => ?_, _, exec_sizeO s, sizeO_eq_ten_iff s.val⟩⟩
  · rw [exec_sizeO, show sizeO s.val = 1 by rw [hzero]; rfl]
  · rw [exec_sizeO, sizeO_eq_ceil hval]

/-! ### Encodes -/

/-- A forward encode that fits: the first `size` indices hold the encoding upward and every other one is not
written. -/
theorem Encodes.forward_fits {i : Instr} {size : Word → Nat} {enc : Word → List Byte} {layout : Word → Nat → Nat → Byte}
    (h : Encodes i .forward size enc) (e : Encoding size enc)
    (hlayout : ∀ {v k} (hk : k < (enc v).length), (enc v)[k] = layout v (size v) k) {s : State}
    (hfits : size s.val ≤ s.buf.len) :
    ∃ m, exec i s = .next { s with buf := m, count := size s.val, status := 0x00 } ∧ m.len = s.buf.len ∧
      ∀ j, m.memRead j = if j < size s.val then some (layout s.val (size s.val) j) else s.buf.memRead j := by
  obtain ⟨m, hexec, hlen, -, hbytes, hothers⟩ := h.fits hfits
  rw [e.length_eq] at hothers
  refine ⟨m, hexec, hlen, fun j => ?_⟩
  split
  · next hj =>
    have hk : j < (enc s.val).length := hj.trans_eq (e.length_eq s.val).symm
    rw [← hlayout hk]
    exact hbytes j hk
  · next hj => exact hothers j (fun k hk hjk => hj (hjk ▸ hk))

/-- Settles O22: the bytes of R64's layout at the places of the forward direction. -/
theorem encOWritesOrReportsCapacity : Obligations.EncOWritesOrReportsCapacity := by
  unfold Obligations.EncOWritesOrReportsCapacity
  exact ⟨rfl, fun s => ⟨encodes_encO.forward_fits encoding_overflowSafe getElem_encBytesO, encodes_encO.fails⟩⟩

/-- Settles O23: the bytes of `ENC.O` at the places of the reversed direction. -/
theorem encrOWritesOrReportsCapacity : Obligations.EncrOWritesOrReportsCapacity := by
  unfold Obligations.EncrOWritesOrReportsCapacity
  exact ⟨rfl, fun s => ⟨encodes_encrO.reversed_fits encoding_overflowSafe getElem_encBytesO, encodes_encrO.fails⟩⟩

/-! ### Decodes -/

/-- An overflow-safe decode of either direction ends at the first terminal byte or at the end of the view, with the
bytes it read accumulated in R128's closed form. -/
theorem Decodes.accumulatesO {i : Instr} {d : Direction} {unfinished : Byte} (h : Decodes i d updO unfinished)
    (s : State) :
    (∀ t, s.buf.FirstTerminal d t →
      exec i s = .next { s with val := accumulatedO s.buf d (t + 1) s.val, count := t + 1, status := 0x01 }) ∧
    (s.buf.NoTerminal d →
      exec i s =
        .next { s with val := accumulatedO s.buf d s.buf.len s.val, count := s.buf.len, status := unfinished }) := by
  refine ⟨fun t hterm => ?_, fun hnone => ?_⟩
  · rw [h.of_firstTerminal hterm, foldl_updO_nth]
  · rw [h.of_noTerminal hnone, foldl_updO_nth]

/-- Settles O29: `DEC.O` is the decode of the forward direction that only stops where no byte is terminal. -/
theorem decOPlacesTheGroupsAtTheTop : Obligations.DecOPlacesTheGroupsAtTheTop := by
  unfold Obligations.DecOPlacesTheGroupsAtTheTop
  exact ⟨rfl, decodes_decO.accumulatesO⟩

/-- Settles O30: `DECR.O` is the decode of the reversed direction, a capacity error where no byte is terminal. -/
theorem decrOPlacesTheGroupsAtTheTop : Obligations.DecrOPlacesTheGroupsAtTheTop := by
  unfold Obligations.DecrOPlacesTheGroupsAtTheTop
  exact ⟨rfl, decodes_decrO.accumulatesO⟩

end Sys2Proof.Machine

/-! ## Proofs of 45_host_access.md: the host's reads and writes, SETBUF and GETBUF, and which accesses are refused -/

namespace Sys2Proof.Machine

/-! ### Register reads and writes -/

/-- A read of register 0, 1, 2 or 3 returns something and changes nothing else (R151 to R153, R156). -/
theorem perform_read_of_lt {n : Nat} (h : n < 4) (s : State) : ∃ r, perform (.read n) s = .next (s.withReply r) := by
  match n, h with
  | 0, _ | 1, _ | 2, _ | 3, _ => exact ⟨_, rfl⟩

theorem perform_read_of_le {n : Nat} (h : 4 ≤ n) (s : State) :
    perform (.read n) s = .refused (.registerNotImplemented n) := by
  obtain ⟨k, rfl⟩ := Nat.exists_eq_add_of_le' h
  rfl

theorem perform_write_beyond (k : Nat) (s : State) :
    perform (.write (.beyond k)) s = .refused (.registerNotImplemented (4 + k)) := rfl

theorem perform_getbuf (s : State) :
    perform .getbuf s = .next { s with reply := some (.bytes s.buf.toBytes) } := rfl

/-- Settles O46: a read or write of register `4 + k` is refused under that number. -/
theorem unimplementedRegistersAreRefused : Obligations.UnimplementedRegistersAreRefused := by
  unfold Obligations.UnimplementedRegistersAreRefused
  exact fun k s => ⟨perform_read_of_le (Nat.le_add_right 4 k) s, perform_write_beyond k s⟩

/-- Settles O43: `WRVAL` writes VAL, and a write of COUNT or STATUS answers the state it found. -/
theorem hostWritesReachOnlyVal : Obligations.HostWritesReachOnlyVal := by
  unfold Obligations.HostWritesReachOnlyVal
  exact fun s => ⟨fun x => perform_wrval x s, fun n => rfl, fun b => rfl⟩

/-- Settles O42: a register read returns the field it names, and `GETBUF` the view's bytes in the order of their
indices. -/
theorem hostReadsReturnAndChangeNothing : Obligations.HostReadsReturnAndChangeNothing := by
  unfold Obligations.HostReadsReturnAndChangeNothing
  exact fun s => ⟨rfl, rfl, rfl, rfl, s.buf.toBytes, perform_getbuf s, s.buf.length_toBytes, s.buf.getElem?_toBytes⟩

/-- Settles O8: the word is the encoder's word for the command, and the step takes its write off the pending
accesses. -/
theorem stepRunsTheDecodedCommand : Obligations.StepRunsTheDecodedCommand := by
  unfold Obligations.StepRunsTheDecodedCommand
  intro s c i es hpending hdecode _
  obtain rfl := decode_eq_command_iff.1 hdecode
  rw [step_cons hpending, perform_cmd, issueCommand_encode]
  rfl

/-! ### SETBUF and GETBUF -/

/-- R154's greatest length, as the bound the view's laws are stated with. -/
theorem lt_two_pow_lenW_iff {n : Nat} : n < 2 ^ Config.lenW ↔ n ≤ 2 ^ Config.lenW - 1 :=
  Nat.lt_iff_le_pred (Nat.two_pow_pos _)

/-- Settles O44: the view of a byte sequence holds the `i`-th byte at index `i`, and a sequence is too long for it from
`2^LEN_W` bytes on. -/
theorem setbufAttachesItsBytes : Obligations.SetbufAttachesItsBytes := by
  unfold Obligations.SetbufAttachesItsBytes
  intro bs s
  refine ⟨fun hfits => ?_, fun hlong => ?_⟩
  · exact ⟨Memory.ofBytes bs, perform_setbuf_of_fits (lt_two_pow_lenW_iff.2 hfits) s, Memory.ofBytes_len bs,
      Memory.memRead_ofBytes bs⟩
  · exact perform_setbuf_of_long (Nat.le_of_pred_lt hlong) s

/-- Settles O45: reading back the view of a byte sequence gives the sequence. -/
theorem getbufReturnsTheAttachedBytes : Obligations.GetbufReturnsTheAttachedBytes := by
  unfold Obligations.GetbufReturnsTheAttachedBytes
  intro bs s hfits
  have hattach := perform_setbuf_of_fits (lt_two_pow_lenW_iff.2 hfits) s
  refine ⟨_, (performAll_cons_of_next hattach _).trans (performAll_cons_of_next (perform_getbuf _) []), ?_⟩
  simp only [Memory.toBytes_ofBytes]

/-! ### Legal accesses -/

/-- The outcome an access must have by its legality: a next state if it is legal, a refusal if it is not. -/
def CompletesIff (legal : Bool) (o : Host.Outcome State Fault Refusal) : Prop :=
  (legal = true → ∃ t, o = .next t) ∧ (legal = false → ∃ r, o = .refused r)

theorem CompletesIff.of_next {legal : Bool} {o : Host.Outcome State Fault Refusal} (hlegal : legal = true)
    (ho : ∃ t, o = .next t) : CompletesIff legal o :=
  ⟨fun _ => ho, by simp [hlegal]⟩

theorem CompletesIff.of_refused {legal : Bool} {o : Host.Outcome State Fault Refusal} (hillegal : legal = false)
    (ho : ∃ r, o = .refused r) : CompletesIff legal o :=
  ⟨by simp [hillegal], fun _ => ho⟩

/-- Settles O13, by the kind of access: only the register numbers of R158 and the lengths of R154 are refused. -/
theorem exactlyTheLegalAccessesComplete : Obligations.ExactlyTheLegalAccessesComplete := by
  unfold Obligations.ExactlyTheLegalAccessesComplete
  intro e s
  change CompletesIff e.wellFormed (perform e s)
  cases e with
  | write w =>
    cases w with
    | cmd c => exact .of_next rfl (issueCommand_completes c s)
    | val | count | status => exact .of_next rfl ⟨_, rfl⟩
    | beyond k => exact .of_refused rfl ⟨_, perform_write_beyond k s⟩
  | read n =>
    rcases Nat.lt_or_ge n 4 with hlt | hge
    · obtain ⟨r, hr⟩ := perform_read_of_lt hlt s
      exact .of_next (decide_eq_true (Nat.le_of_lt_succ hlt)) ⟨_, hr⟩
    · exact .of_refused (decide_eq_false (Nat.not_le.2 hge)) ⟨_, perform_read_of_le hge s⟩
  | setbuf bs =>
    rcases Nat.lt_or_ge bs.length (2 ^ Config.lenW) with hfits | hlong
    · exact .of_next ((Laws.lenFits_iff _).2 hfits) ⟨_, perform_setbuf_of_fits hfits s⟩
    · have hnot : Config.lenFits bs.length = false :=
        Bool.eq_false_iff.2 ((Laws.lenFits_iff _).not.2 (Nat.not_lt.2 hlong))
      exact .of_refused hnot ⟨_, perform_setbuf_of_long hlong s⟩
  | getbuf | reset => exact .of_next rfl ⟨_, rfl⟩

end Sys2Proof.Machine

/-! ## Proofs of 60_exceptions.md: the outcomes of a command word (R170), the two errors (R172, R175), and distinct
blocks (R183) -/

namespace Sys2Proof.Machine

/-! ### The outcome of a command -/

/-- What STATUS can hold after each command: the codes of those outcomes of R170 that a command of its kind can have. -/
def outcomeCodes : Instr → List Byte
  | .sizeS | .sizeO => [0x00]
  | .encS | .encrS | .encO | .encrO => [0x00, 0x02]
  | .decS | .decO => [0x01, 0x00]
  | .decrS | .decrO => [0x01, 0x02]

theorem Encodes.status_mem {i : Instr} {d : Direction} {size : Word → Nat} {enc : Word → List Byte}
    (h : Encodes i d size enc) {s t : State} (hexec : exec i s = .next t) : t.status ∈ [0x00, 0x02] := by
  rcases Nat.lt_or_ge s.buf.len (size s.val) with hlt | hge
  · cases (h.fails hlt).symm.trans hexec
    exact List.mem_cons_of_mem _ List.mem_cons_self
  · obtain ⟨m, hm, -⟩ := h.fits hge
    cases hm.symm.trans hexec
    exact List.mem_cons_self

theorem Decodes.status_mem {i : Instr} {d : Direction} {upd : Word → Byte → Word} {unfinished : Byte}
    (h : Decodes i d upd unfinished) {s t : State} (hexec : exec i s = .next t) : t.status ∈ [0x01, unfinished] := by
  cases (h s).symm.trans hexec
  dsimp only
  split
  · exact List.mem_cons_self
  · exact List.mem_cons_of_mem _ List.mem_cons_self

/-- STATUS shows one of the command's own outcomes (60_exceptions.md R170). -/
theorem status_mem_outcomeCodes {i : Instr} {s t : State} (h : exec i s = .next t) : t.status ∈ outcomeCodes i := by
  cases i with
  | sizeS => cases h; exact List.mem_cons_self
  | sizeO => cases h; exact List.mem_cons_self
  | encS => exact encodes_encS.status_mem h
  | encrS => exact encodes_encrS.status_mem h
  | encO => exact encodes_encO.status_mem h
  | encrO => exact encodes_encrO.status_mem h
  | decS => exact decodes_decS.status_mem h
  | decO => exact decodes_decO.status_mem h
  | decrS => exact decodes_decrS.status_mem h
  | decrO => exact decodes_decrO.status_mem h

/-- Settles O16: a legal word performs its command, which shows one of its outcomes, and a reserved word raises
IllegalCommand. -/
theorem everyCommandEndsInOneOutcome : Obligations.EveryCommandEndsInOneOutcome := by
  unfold Obligations.EveryCommandEndsInOneOutcome
  intro c s
  rcases decode_cases c with ⟨-, i, hi⟩ | ⟨hillegal, why, hreserved⟩
  · obtain rfl := decode_eq_command_iff.1 hi
    obtain ⟨t, ht, -⟩ := exec_effect i s
    have hmem := status_mem_outcomeCodes ht
    refine ⟨t, (issueCommand_encode i s).trans ht, fun j hj => ?_, fun hnone => absurd hi (hnone i)⟩
    cases hi.symm.trans hj
    cases i <;> simpa [outcomeCodes] using hmem
  · refine ⟨_, issueCommand_reserved hillegal s, fun j hj => ?_, fun _ => rfl⟩
    cases hreserved.symm.trans hj

/-! ### The two errors -/

/-- R175's condition on a word is R74's "not legal". -/
theorem legalWord_eq_false_iff (c : Byte) :
    legalWord c = false ↔ c >>> 4 ≠ 0 ∨ c &&& 7 = 5 ∨ c &&& 7 = 6 ∨ c &&& 7 = 7 := by
  revert c
  decide

/-- Settles O17: such a word is reserved, and IllegalCommand writes STATUS alone. -/
theorem reservedWordOnlySetsIll : Obligations.ReservedWordOnlySetsIll := by
  unfold Obligations.ReservedWordOnlySetsIll
  intro c s hc
  rw [perform_cmd, issueCommand_reserved ((legalWord_eq_false_iff c).2 hc), raiseIllegalCommand_eq]

@[simp] theorem length_drawBytes (first k : Nat) : (drawBytes first k).length = k := by simp [drawBytes]

theorem getElem?_drawBytes {first k i : Nat} (h : i < k) :
    (drawBytes first k)[i]? = some (Config.freeByte (first + i)) := by
  simp [drawBytes, h]

/-- A capacity-failed encode under `ANY_PREFIX` (60_exceptions.md R172). -/
theorem encodeCommand_anyPrefix_of_lt {d : Direction} {size : Word → Nat} {enc : Word → List Byte} {s : State}
    (h : s.buf.len < size s.val) :
    encodeCommand .anyPrefix d size enc s = .next { s with
      buf := Memory.ofBytes (drawBytes s.draws s.buf.len)
      count := size s.val
      status := 0x02
      draws := s.draws + s.buf.len } := by
  simp only [encodeCommand, h, if_true]
  rfl

/-- Settles O47: a failed encode leaves the view of as many drawn bytes as it had, whichever bytes it would have
written. -/
theorem anyPrefixDrawsEveryViewByte : Obligations.AnyPrefixDrawsEveryViewByte := by
  unfold Obligations.AnyPrefixDrawsEveryViewByte
  intro x _ d s hlt
  refine ⟨_, encodeCommand_anyPrefix_of_lt hlt, by simp, fun i hi => ?_⟩
  rw [Memory.memRead_ofBytes, getElem?_drawBytes hi]

/-! ### Distinct blocks -/

/-- A step of another block leaves block `k` and its step as they were. -/
theorem stepBlock_set_of_ne {j k : Nat} {bs : Blocks} {s t : State} (hne : j ≠ k) (hk : bs[k]? = some s)
    (hstep : step s = .next t) (u : State) : stepBlock k (bs.set j u) = .next ((bs.set j u).set k t) :=
  stepBlock_eq_next_iff.2 ⟨s, t, (List.getElem?_set_ne hne).trans hk, hstep, rfl⟩

/-- Settles O50: each step replaces its own block alone, and two such replacements commute. -/
theorem distinctBlocksCommute : Obligations.DistinctBlocksCommute := by
  unfold Obligations.DistinctBlocksCommute
  intro j k bs b₁ b₂ hne h₁ h₂
  obtain ⟨s₁, t₁, hj, hstep₁, rfl⟩ := stepBlock_eq_next_iff.1 h₁
  obtain ⟨s₂, t₂, hk, hstep₂, rfl⟩ := stepBlock_eq_next_iff.1 h₂
  refine ⟨(bs.set j t₁).set k t₂, stepBlock_set_of_ne hne hk hstep₂ t₁, ?_⟩
  rw [List.set_comm t₁ t₂ hne]
  exact stepBlock_set_of_ne hne.symm hj hstep₁ t₂

end Sys2Proof.Machine

/-! ## Proofs of 70_reset_and_hazards.md: the reset event (R190) and commands right after it (R192) -/

namespace Sys2Proof.Machine

/-! ### The reset event -/

theorem resetBlock_eq (s : State) :
    resetBlock s = { s with val := 0, count := 0, status := 0x00, buf := State.reset.buf } := rfl

@[simp] theorem resetBlock_val (s : State) : (resetBlock s).val = 0 := rfl
@[simp] theorem resetBlock_buf_len (s : State) : (resetBlock s).buf.len = 0 := rfl

/-- Settles O5: the event always completes, and its writes are R190's. -/
theorem resetEventClearsTheBlock : Obligations.ResetEventClearsTheBlock := by
  unfold Obligations.ResetEventClearsTheBlock
  intro s
  rw [perform, resetBlock_eq]

/-! ### Commands on an empty view -/

theorem Encoding.size_zero {size : Word → Nat} {enc : Word → List Byte} (e : Encoding size enc) : size 0 = 1 := by
  rw [← e.length_eq, e.zero_eq, List.length_singleton]

/-- The one byte of the encoding of 0 (30_encoding.md R66) does not fit an empty view. -/
theorem Encodes.zero_of_emptyView {i : Instr} {d : Direction} {size : Word → Nat} {enc : Word → List Byte}
    (h : Encodes i d size enc) (e : Encoding size enc) {s : State} (hempty : s.buf.len = 0) (hval : s.val = 0) :
    exec i s = .next { s with count := 1, status := 0x02 } := by
  have hsize : size s.val = 1 := by rw [hval, e.size_zero]
  rw [h.fails (by omega), hsize]

/-- An empty view has no terminal byte, and there is nothing to accumulate. -/
theorem Decodes.of_emptyView {i : Instr} {d : Direction} {upd : Word → Byte → Word} {unfinished : Byte}
    (h : Decodes i d upd unfinished) {s : State} (hempty : s.buf.len = 0) :
    exec i s = .next { s with count := 0, status := unfinished } := by
  have hnone : s.buf.NoTerminal d := fun k hk => absurd hk (by omega)
  rw [h.of_noTerminal hnone, hempty]
  rfl

/-- Settles O6: right after reset the view is empty and VAL is 0, whose encoded size is 1. -/
theorem commandsRightAfterReset : Obligations.CommandsRightAfterReset := by
  unfold Obligations.CommandsRightAfterReset
  intro s
  have hempty : (resetBlock s).buf.len = 0 := resetBlock_buf_len s
  have hval : (resetBlock s).val = 0 := resetBlock_val s
  simp only [List.mem_cons, List.not_mem_nil, or_false, forall_eq_or_imp, forall_eq]
  refine ⟨⟨?_, ?_, ?_, ?_⟩, ⟨?_, ?_⟩, ?_, ?_⟩
  · exact encodes_encS.zero_of_emptyView encoding_standard hempty hval
  · exact encodes_encrS.zero_of_emptyView encoding_standard hempty hval
  · exact encodes_encO.zero_of_emptyView encoding_overflowSafe hempty hval
  · exact encodes_encrO.zero_of_emptyView encoding_overflowSafe hempty hval
  · exact decodes_decS.of_emptyView hempty
  · exact decodes_decO.of_emptyView hempty
  · exact decodes_decrS.of_emptyView hempty
  · exact decodes_decrO.of_emptyView hempty

end Sys2Proof.Machine
